-- ==== Sys2Proof/Word.lean ====
section
/-! DEFINITION. The widths the spec names: bytes, 11-bit channel values, and the two sign readings of 00_scope.md R8. -/

namespace Sys2Proof

/-- A u8 of 00_scope.md R8. -/
abbrev Byte := BitVec 8

/-- An RC channel value, u11 (10_state.md R26). -/
abbrev Channel := BitVec 11

/-- The 48-bit internal writer control word of 30_encoding.md R94. -/
abbrev ControlWord := BitVec 48

/-- A telemetry kind: 0 = battery, 1 = custom (00_scope.md R6 `NKINDS`, 10_state.md R30). Addition is modulo
`NKINDS`, as the scan of 45_telemetry_mux.md R229 needs. -/
abbrev Kind := Fin 2

end Sys2Proof
end

