-- ==== Sys2Proof/Syntax.lean ====
section
/-! DEFINITION. The instructions: the eight commands of the command port and the illegal opcodes (30_encoding.md R82,
R86), and the writer micro-ops with their reserved codes (R95, R96). -/

namespace Sys2Proof

/-- One constructor per mnemonic of spec/opcode_table.json. The count `n` of an FN command is its data's length. -/
inductive Instr where
  /-- FEED (42_frame_decoder.md R150). -/
  | feed (b : Byte)
  /-- DRESET (R157). -/
  | dreset
  /-- SETLQT (44_failsafe.md R212). -/
  | setlqt (t : Byte)
  /-- SETRST (R213). -/
  | setrst (t : Byte)
  /-- SETBAT (45_telemetry_mux.md R226). -/
  | setbat (voltage : BitVec 16) (current : BitVec 16) (capacity : BitVec 24) (percent : Byte)
  /-- SETCUS (R227). -/
  | setcus (data : List Byte)
  /-- POLL (R229). -/
  | poll
  /-- CRC (40_crc8.md R113). -/
  | crc (data : List Byte)
  /-- ILLEGAL: opcodes 0x00 and 0x09 to 0xFF (30_encoding.md R86). -/
  | illegal (op : Byte)
  /-- W_RESET (41_buffer_writer.md R130). -/
  | wReset
  /-- W_U8 (R133). -/
  | wU8 (wdata : BitVec 32)
  /-- W_S8 (R134). -/
  | wS8 (wdata : BitVec 32)
  /-- W_U16 (R135). -/
  | wU16 (wdata : BitVec 32)
  /-- W_S16 (R136). -/
  | wS16 (wdata : BitVec 32)
  /-- W_U24 (R137). -/
  | wU24 (wdata : BitVec 32)
  /-- W_S24 (R138). -/
  | wS24 (wdata : BitVec 32)
  /-- W_U32 (R139). -/
  | wU32 (wdata : BitVec 32)
  /-- W_S32 (R140). -/
  | wS32 (wdata : BitVec 32)
  /-- W_PATCH (R141). -/
  | wPatch (widx : BitVec 6) (wdata : BitVec 32)
  /-- W_RESERVED: micro-op codes 0xA to 0xF (30_encoding.md R96). -/
  | wReserved (wop : BitVec 4)
  deriving DecidableEq, Repr

end Sys2Proof
end

