-- ==== Sys2Proof/WellFormed.lean ====
section
/-! DEFINITION. Which instruction terms an encoding stands for: the operand ranges of 30_encoding.md R81 to R86 and R96
that the types of Syntax.lean do not carry. -/

namespace Sys2Proof

/-- The opcodes R86 calls illegal: 0x00 and 0x09 to 0xFF. -/
def isIllegalOpcode (op : Byte) : Bool := op.toNat == 0 || 9 ≤ op.toNat

/-- The micro-op codes R96 reserves: 0xA to 0xF. -/
def isReservedWop (wop : BitVec 4) : Bool := 10 ≤ wop.toNat

/-- A term that some encoding stands for: FN counts are u8 (R81), an `illegal` carries an illegal opcode (R86), a
`wReserved` a reserved code (R96). What `exec` does with other terms is log 16. -/
def Instr.wellFormed : Instr → Bool
  | .feed _ => true
  | .dreset => true
  | .setlqt _ => true
  | .setrst _ => true
  | .setbat _ _ _ _ => true
  | .setcus data => data.length ≤ 255
  | .poll => true
  | .crc data => data.length ≤ 255
  | .illegal op => isIllegalOpcode op
  | .wReset => true
  | .wU8 _ => true
  | .wS8 _ => true
  | .wU16 _ => true
  | .wS16 _ => true
  | .wU24 _ => true
  | .wS24 _ => true
  | .wU32 _ => true
  | .wS32 _ => true
  | .wPatch _ _ => true
  | .wReserved wop => isReservedWop wop

/-- Is the instruction a command of the command port (30_encoding.md R82, R86), and not a writer micro-op (R95)? -/
def Instr.isCommand : Instr → Bool
  | .feed _ | .dreset | .setlqt _ | .setrst _ | .setbat _ _ _ _ | .setcus _ | .poll | .crc _ | .illegal _ => true
  | .wReset | .wU8 _ | .wS8 _ | .wU16 _ | .wS16 _ | .wU24 _ | .wS24 _ | .wU32 _ | .wS32 _ | .wPatch _ _
  | .wReserved _ => false

end Sys2Proof
end

