-- ==== Sys2Proof/Decode.lean ====
section
/-! DEFINITION. The command decoder and its encoder (30_encoding.md R81 to R88), the writer control word's decoder and
encoder (R94 to R96), and the host's view of the opcode table's words. -/

namespace Sys2Proof

/-! ### Operand fields (30_encoding.md R84) -/

/-- A u16 from two big-endian bytes, `{hi, lo}`. -/
def be16 (hi lo : Byte) : BitVec 16 := hi ++ lo

/-- A u24 from three big-endian bytes, `{b2, b1, b0}`. -/
def be24 (b2 b1 b0 : Byte) : BitVec 24 := b2 ++ b1 ++ b0

/-- The byte at bits 8k+7 : 8k of a value. -/
def byteOf {w : Nat} (v : BitVec w) (k : Nat) : Byte := v.extractLsb' (8 * k) 8

/-! ### The command port -/

/-- The four command formats of R81. -/
inductive Format where
  | f0
  | f1
  | f8
  | fn
  deriving DecidableEq, Repr

/-- The format an opcode selects (R82); an illegal opcode is a one-byte command (R86). -/
def formatOf (op : Byte) : Format :=
  match op.toNat with
  | 1 | 3 | 4 => .f1
  | 5 => .f8
  | 6 | 8 => .fn
  | _ => .f0

/-- The length of a command from its first byte and, for format FN, the byte after it: R83's `length(op, next)`. -/
def commandLength (op next : Byte) : Nat :=
  match formatOf op with
  | .f0 => 1
  | .f1 => 2
  | .f8 => 9
  | .fn => 2 + next.toNat

/-- Why the decoder holds (R88): each names what the stream still lacks. -/
inductive Hold where
  /-- The stream is empty. -/
  | noOpcode
  /-- A format F1 command without its operand. -/
  | noOperand
  /-- A format F8 command with fewer than eight operand bytes. -/
  | noFields
  /-- A format FN command without its count. -/
  | noCount
  /-- A format FN command with fewer data bytes than its count. -/
  | noData
  deriving DecidableEq, Repr

/-- A format F1 command: its operand byte. -/
def decodeF1 (mk : Byte → Instr) : List Byte → Except Hold (Instr × List Byte)
  | b :: rest => .ok (mk b, rest)
  | [] => .error .noOperand

/-- The format F8 command, SETBAT: big-endian fields (R84). -/
def decodeF8 : List Byte → Except Hold (Instr × List Byte)
  | o0 :: o1 :: o2 :: o3 :: o4 :: o5 :: o6 :: o7 :: rest =>
    .ok (.setbat (be16 o0 o1) (be16 o2 o3) (be24 o4 o5 o6) o7, rest)
  | _ => .error .noFields

/-- A format FN command: its count and that many data bytes, whatever the count (R85). -/
def decodeFN (mk : List Byte → Instr) : List Byte → Except Hold (Instr × List Byte)
  | n :: rest => if rest.length < n.toNat then .error .noData else .ok (mk (rest.take n.toNat), rest.drop n.toNat)
  | [] => .error .noCount

/-- The command decoder: cuts the first command off a byte stream and gives it with the rest of the stream, or says
what it waits for (R80 to R88). The opcode map is R82's, an exact match on all 8 bits. -/
def decodeCommand : List Byte → Except Hold (Instr × List Byte)
  | [] => .error .noOpcode
  | op :: rest =>
    match op.toNat with
    | 1 => decodeF1 .feed rest
    | 2 => .ok (.dreset, rest)
    | 3 => decodeF1 .setlqt rest
    | 4 => decodeF1 .setrst rest
    | 5 => decodeF8 rest
    | 6 => decodeFN .setcus rest
    | 7 => .ok (.poll, rest)
    | 8 => decodeFN .crc rest
    | _ => .ok (.illegal op, rest)

/-! ### The writer control word -/

/-- Assemble a control word: `wop` in bits 47:44, `widx` in 43:38, zero in 37:32, `wdata` in 31:0 (R94). -/
def controlWord (wop : BitVec 4) (widx : BitVec 6) (wdata : BitVec 32) : ControlWord := wop ++ widx ++ (0 : BitVec 6) ++ wdata

/-- `wop`, bits 47:44 (R94). -/
def wopOf (w : ControlWord) : BitVec 4 := w.extractLsb' 44 4

/-- `widx`, bits 43:38 (R94). -/
def widxOf (w : ControlWord) : BitVec 6 := w.extractLsb' 38 6

/-- `wdata`, bits 31:0 (R94). -/
def wdataOf (w : ControlWord) : BitVec 32 := w.extractLsb' 0 32

/-- The micro-op map of R95; codes 0xA to 0xF are reserved (R96). Only `wop` selects, as the opcode table's masks do:
DESIGN CHOICE (log 5), bits 37:32, and `widx` or `wdata` where the micro-op has no such operand, are ignored. -/
def decodeControl (w : ControlWord) : Instr :=
  match (wopOf w).toNat with
  | 0 => .wReset
  | 1 => .wU8 (wdataOf w)
  | 2 => .wS8 (wdataOf w)
  | 3 => .wU16 (wdataOf w)
  | 4 => .wS16 (wdataOf w)
  | 5 => .wU24 (wdataOf w)
  | 6 => .wS24 (wdataOf w)
  | 7 => .wU32 (wdataOf w)
  | 8 => .wS32 (wdataOf w)
  | 9 => .wPatch (widxOf w) (wdataOf w)
  | _ => .wReserved (wopOf w)

/-! ### The encoder -/

/-- What stands for an instruction: a command's bytes, or a micro-op's control word. -/
inductive Code where
  | command (bytes : List Byte)
  | control (w : ControlWord)
  deriving DecidableEq, Repr

/-- A format FN command's bytes: opcode, count, data (R81). -/
def encodeFN (op : Byte) (data : List Byte) : List Byte := op :: BitVec.ofNat 8 data.length :: data

/-- The words of an instruction, from the formats of R81, the opcode map of R82 and the micro-op map of R95. -/
def encode : Instr → Code
  | .feed b => .command [0x01, b]
  | .dreset => .command [0x02]
  | .setlqt t => .command [0x03, t]
  | .setrst t => .command [0x04, t]
  | .setbat v c k p =>
    .command [0x05, byteOf v 1, byteOf v 0, byteOf c 1, byteOf c 0, byteOf k 2, byteOf k 1, byteOf k 0, p]
  | .setcus data => .command (encodeFN 0x06 data)
  | .poll => .command [0x07]
  | .crc data => .command (encodeFN 0x08 data)
  | .illegal op => .command [op]
  | .wReset => .control (controlWord 0x0 0 0)
  | .wU8 d => .control (controlWord 0x1 0 d)
  | .wS8 d => .control (controlWord 0x2 0 d)
  | .wU16 d => .control (controlWord 0x3 0 d)
  | .wS16 d => .control (controlWord 0x4 0 d)
  | .wU24 d => .control (controlWord 0x5 0 d)
  | .wS24 d => .control (controlWord 0x6 0 d)
  | .wU32 d => .control (controlWord 0x7 0 d)
  | .wS32 d => .control (controlWord 0x8 0 d)
  | .wPatch i d => .control (controlWord 0x9 i d)
  | .wReserved wop => .control (controlWord wop 0 0)

/-- The bytes a command occupies on the command port; a micro-op has none there (R94). -/
def commandBytes (i : Instr) : List Byte :=
  match encode i with
  | .command bytes => bytes
  | .control _ => []

/-! ### The opcode table's words -/

/-- The first `n` bytes of a number, bits 7..0 first. -/
def lowBytes : Nat → Nat → List Byte
  | 0, _ => []
  | n + 1, w => BitVec.ofNat 8 w :: lowBytes n (w / 256)

/-- The bytes a command row's word stands for on the port: the low `nbits` bits of `w`, bits 7..0 first, then zeros
up to the longest command, 257 bytes (R83 with n = 255). -/
def tableBytes (nbits w : Nat) : List Byte := lowBytes 257 (w % 2 ^ nbits)

/-- Rows of the opcode table with 48 bits are writer control words, all others are command bytes (log 11). -/
def isControlRow (nbits : Nat) : Bool := nbits == 48

/-- The instruction the decoder reads from a word of the opcode table. -/
def decodeTableWord (nbits w : Nat) : Option Instr :=
  if isControlRow nbits then
    some (decodeControl (BitVec.ofNat 48 w))
  else
    match decodeCommand (tableBytes nbits w) with
    | .ok (i, _) => some i
    | .error _ => none

end Sys2Proof
end

