-- ==== Sys2Proof/Machine/Operands.lean ====
section
/-! DEFINITION. Operand forms of the writer micro-ops (41_buffer_writer.md section 2), and values made of bytes: the
byte orders of 20_memory.md R63 and R64. -/

namespace Sys2Proof.Machine

/-- The low n bytes of a 32-bit value, most significant first: byte j is `v[8(n-1-j)+7 : 8(n-1-j)]` (00_scope.md R9). -/
def beBytes (n : Nat) (v : BitVec 32) : List Byte := (List.range n).map fun j => byteOf v (n - 1 - j)

/-- The value of a big-endian byte string (20_memory.md R63). -/
def beValue (bytes : List Byte) : Nat := bytes.foldl (fun acc b => 256 * acc + b.toNat) 0

/-- The value of a little-endian byte string, `Σ p[j] · 2^(8j)` (20_memory.md R64, 43_payload_codecs.md R180). -/
def leValue : List Byte → Nat
  | [] => 0
  | b :: bs => b.toNat + 256 * leValue bs

/-- `wdata` of an unsigned append: the value itself, below 2^32 (41_buffer_writer.md section 2). -/
def unsignedWdata (v : Nat) : BitVec 32 := BitVec.ofNat 32 v

/-- `wdata` of a signed append: `sext_32` of the value (41_buffer_writer.md section 2). -/
def signedWdata (v : Int) : BitVec 32 := BitVec.ofInt 32 v

/-- The byte a micro-op of width 1 uses, `wdata[7:0]` (41_buffer_writer.md R133, R141). -/
def lowByte (wdata : BitVec 32) : Byte := byteOf wdata 0

end Sys2Proof.Machine
end

