-- ==== Sys2Proof/Config.lean ====
section
/-! DEFINITION. The implementation parameters of 00_scope.md R6, each at the value R6 lists for this hardware. The
spec leaves no result undefined, so there is no free value here (INVENTORY.md, 'What the manual leaves open'). -/

namespace Sys2Proof.Config

/-- `RX_CAP`: receive buffer bytes. The buffer's type `Vector Byte 64` carries the same number. -/
abbrev rxCap : Nat := 64

/-- `TX_CAP`: writer buffer bytes (decision D22). -/
abbrev txCap : Nat := 64

/-- `LEN_MIN`: least legal frame length byte. -/
abbrev lenMin : Nat := 2

/-- `LEN_MAX`: greatest legal frame length byte. -/
abbrev lenMax : Nat := 62

/-- `SYNC_A`, the canonical sync byte. -/
def syncA : Byte := 0xC8

/-- `SYNC_B`, the tolerated sync byte. -/
def syncB : Byte := 0xEE

/-- `SYNC_TX`, the sync byte of emitted frames (decision D15, a parameter: 93_implementation_defined.md I8). -/
def syncTx : Byte := 0xC8

/-- `NCH`: RC channels in a frame. -/
abbrev nCh : Nat := 16

/-- `CH_BITS`: bits in one RC channel. -/
abbrev chBits : Nat := 11

/-- `RC_PAYLOAD`: bytes of an RC payload. -/
abbrev rcPayload : Nat := 22

/-- `LS_PAYLOAD`: bytes of a link-statistics payload. -/
abbrev lsPayload : Nat := 10

/-- `BAT_PAYLOAD`: bytes of a battery payload. -/
abbrev batPayload : Nat := 8

/-- `CUSTOM_MAX`: greatest custom payload. -/
abbrev customMax : Nat := 60

/-- `T_RC`, frame type RC_CHANNELS_PACKED. -/
def typeRc : Byte := 0x16

/-- `T_LS`, frame type LINK_STATISTICS. -/
def typeLs : Byte := 0x14

/-- `T_BAT`, frame type BATTERY_SENSOR. -/
def typeBat : Byte := 0x08

/-- `T_CUS`, frame type CUSTOM_PAYLOAD. -/
def typeCus : Byte := 0x7F

/-- `NKINDS`: telemetry kinds. -/
abbrev nKinds : Nat := 2

/-- `LQT_RESET`. -/
def lqtReset : Byte := 70

/-- `RSSIT_RESET`. -/
def rssitReset : Byte := 105

/-- `FAILSAFE_RESET` (decision D14). -/
def failsafeReset : Bool := false

/-- `TXPWR_MW[0..8]`, milliwatts: the parameter of decision D13 at this hardware's value (log 9). -/
def txpwrMw : Vector (BitVec 16) 9 := #v[0, 10, 25, 100, 500, 1000, 2000, 250, 50]

/-- `CRC_POLY`. -/
def crcPoly : Byte := 0xD5

/-- `CRC_INIT` (decision D26; general knowledge in the spec, log 15). -/
def crcInit : Byte := 0x00

/-- `CRC_XOROUT` (decision D26). -/
def crcXorOut : Byte := 0x00

/-- `ANT_SELECT_POLARITY`, 0 and 1 read as a bool (00_scope.md R8): false is R6's 0, under which antenna byte 0 selects
the RSSI of antenna 1 and any other value antenna 2. DESIGN CHOICE (log 9): true, which this hardware does not have,
swaps the two. -/
def antSelectPolarity : Bool := false

end Sys2Proof.Config
end

