-- ==== Sys2Proof/Machine/State.lean ====
section
/-! DEFINITION. The state of one engine instance, exactly the elements of 10_state.md R40, grouped by the components of
00_scope.md R2, with the model's own input and output fields; the output records of 30_encoding.md R90 to R93; the
reasons a step can stop; the state after power-on reset. -/

namespace Sys2Proof.Machine

/-! ### Outputs of a step -/

/-- The response codes of 30_encoding.md R90, the first eight being the decode outcomes of R91. -/
inductive RespCode where
  | progress
  | syncDiscard
  | lengthReject
  | crcMismatch
  | frameRc
  | frameLink
  | frameIgnored
  | frameSizeMismatch
  | ack
  | reject
  | illegal
  | pollNone
  | pollBattery
  | pollCustom
  | crcResult
  deriving DecidableEq, Repr

/-- A response: its code and its value (R90). -/
structure Response where
  code  : RespCode
  value : Byte
  deriving DecidableEq, Repr

/-- The link-statistics record of 43_payload_codecs.md R183: ten raw fields and the two derived ones. `snr` and `dlSnr`
are s8 fields, held as their 8 bits (R187, log 17; `snrValue` and `dlSnrValue` read them). -/
structure LinkStats where
  rssi1    : Byte
  rssi2    : Byte
  lq       : Byte
  snr      : Byte
  antenna  : Byte
  rfMode   : Byte
  txpwrIdx : Byte
  dlRssi   : Byte
  dlLq     : Byte
  dlSnr    : Byte
  rssi     : Byte
  txpwrMw  : BitVec 16
  deriving DecidableEq, Repr

/-- An event record of 30_encoding.md R92. -/
inductive Event where
  /-- `EvRc`: the whole channel table. -/
  | rc (ch : Vector Channel 16)
  /-- `EvLink`: the link-statistics record. -/
  | link (ls : LinkStats)
  /-- `EvFailsafe`: the new failsafe state. -/
  | failsafe (active : Bool)
  deriving DecidableEq, Repr

/-- The three outputs of one command's step (R89): its response, its events in order, its transmit bytes. -/
structure StepOutput where
  response : Response
  events   : List Event
  transmit : List Byte
  deriving DecidableEq, Repr

/-! ### Engine state -/

/-- The decoder's four states (10_state.md R22). -/
inductive DecState where
  | awaitSync
  | awaitLength
  | accumulate
  | awaitCrc
  deriving DecidableEq, Repr

/-- Frame decoder state (R22 to R25). `idx` is the 6-bit `dec_idx`. -/
structure Decoder where
  state : DecState
  idx   : Fin 64
  len   : Byte
  rxbuf : Vector Byte 64
  deriving DecidableEq, Repr

/-- Telemetry state (R30 to R33). `cusLen` is the 6-bit `cus_len` with its range 0..60 (log 8). -/
structure Telemetry where
  pending     : Vector Bool 2
  batVoltage  : BitVec 16
  batCurrent  : BitVec 16
  batCapacity : BitVec 24
  batPercent  : Byte
  cusLen      : Fin 61
  cusData     : Vector Byte 60
  muxCursor   : Kind
  deriving DecidableEq, Repr

/-- Byte-buffer writer state (R34 to R36). `cursor` is the 7-bit `wr_cursor` with its range 0..64 (log 8). -/
structure Writer where
  txbuf  : Vector Byte 64
  cursor : Fin 65
  ovf    : Bool
  deriving DecidableEq, Repr

/-- One engine instance (R40), and the model's own fields `port` (log 1), `ctl` (log 3) and `outputs` (log 4). -/
structure State where
  /-- `dec_state`, `dec_idx`, `dec_len`, `rxbuf`. -/
  dec      : Decoder
  /-- `chan[0..15]` (R26). -/
  chan     : Vector Channel 16
  /-- `failsafe` (R27). -/
  failsafe : Bool
  /-- `lq_thr` (R28). -/
  lqThr    : Byte
  /-- `rssi_thr` (R29). -/
  rssiThr  : Byte
  /-- `pending`, `bat_*`, `cus_*`, `mux_cursor`. -/
  tel      : Telemetry
  /-- `txbuf`, `wr_cursor`, `wr_ovf`. -/
  wr       : Writer
  /-- Command-port bytes presented by the host and not yet consumed (30_encoding.md R80, R88). -/
  port     : List Byte
  /-- A control word on the writer's internal bus, not yet executed (30_encoding.md R94). -/
  ctl      : Option ControlWord
  /-- The outputs of every command executed so far, oldest first (70_reset_and_hazards.md R278). -/
  outputs  : List StepOutput
  deriving DecidableEq, Repr

/-! ### Stops -/

/-- The engine has no fault of its own (60_exceptions.md R251, R256). -/
inductive Fault where
  /-- Raised by FEED where its pseudocode would reach past `rxbuf[63]` or carry `dec_idx` past 63. Safe: 20_memory.md
  R68 and 10_state.md R38 say that no reachable state does so (log 6). -/
  | rxIndex
  deriving DecidableEq, Repr

/-- Why an instruction is given no meaning. -/
inductive Refusal where
  /-- Raised by an arm of `exec` whose instruction has no meaning yet. Safe: nothing is claimed of it. -/
  | notModelled (mnemonic : String)
  /-- Raised by W_RESERVED, micro-op codes 0xA to 0xF. Safe: 30_encoding.md R96 has a model refuse them. -/
  | reservedWriterOp (wop : BitVec 4)
  deriving DecidableEq, Repr

/-! ### Reset -/

/-- The decoder after power-on reset (R22 to R25). -/
def Decoder.atReset : Decoder :=
  { state := .awaitSync, idx := 0, len := 0, rxbuf := Vector.replicate 64 0 }

/-- The telemetry table after power-on reset (R30 to R33). -/
def Telemetry.atReset : Telemetry :=
  { pending := Vector.replicate 2 false, batVoltage := 0, batCurrent := 0, batCapacity := 0, batPercent := 0,
    cusLen := 0, cusData := Vector.replicate 60 0, muxCursor := 0 }

/-- The writer after power-on reset (R34 to R36). -/
def Writer.atReset : Writer :=
  { txbuf := Vector.replicate 64 0, cursor := 0, ovf := false }

/-- The engine right after power-on reset (10_state.md R40, 70_reset_and_hazards.md R270), with nothing presented on
the port, nothing on the writer bus and nothing observed yet (logs 1, 3, 4). -/
def State.reset : State :=
  { dec := .atReset, chan := Vector.replicate 16 0, failsafe := Config.failsafeReset, lqThr := Config.lqtReset,
    rssiThr := Config.rssitReset, tel := .atReset, wr := .atReset, port := [], ctl := none, outputs := [] }

end Sys2Proof.Machine
end

