-- ==== Sys2Proof/Machine/Ops.lean ====
section
/-! DEFINITION. The named operations over the buffers and the outputs (00_scope.md R9, R10), the decoder reset that
every failure path shares, and the host's actions between steps. The engine has no exception entry and no return from
one (60_exceptions.md R256): an error kind is reported by `respond` alone (R250, 00_scope.md R10). -/

namespace Sys2Proof.Machine

/-! ### Buffers (00_scope.md R9) -/

/-- `buf[a..b]`: the bytes at indices a to b inclusive, empty when b < a. -/
def slice {n : Nat} (buf : Vector Byte n) (a b : Nat) : List Byte := (buf.toList.take (b + 1)).drop a

/-- Store a list of bytes at indices i, i+1, …; the callers' lists fit the buffer. -/
def putBytes {n : Nat} (buf : Vector Byte n) (i : Nat) : List Byte → Vector Byte n
  | [] => buf
  | b :: bs => putBytes (buf.setIfInBounds i b) (i + 1) bs

/-- `MemWrite(buf, i, n, v)`: the low n bytes of v, most significant first. -/
def memWrite {m : Nat} (buf : Vector Byte m) (i n : Nat) (v : BitVec 32) : Vector Byte m := putBytes buf i (beBytes n v)

/-- `MemRead(buf, i, n)`: the big-endian value of n bytes. -/
def memRead {m : Nat} (buf : Vector Byte m) (i n : Nat) : Nat := beValue ((buf.toList.drop i).take n)

/-! ### Outputs (00_scope.md R10, 30_encoding.md R89 to R93) -/

/-- The code byte of a response (30_encoding.md R90, R91). -/
def RespCode.toByte : RespCode → Byte
  | .progress => 0x00
  | .syncDiscard => 0x01
  | .lengthReject => 0x02
  | .crcMismatch => 0x03
  | .frameRc => 0x04
  | .frameLink => 0x05
  | .frameIgnored => 0x06
  | .frameSizeMismatch => 0x07
  | .ack => 0x10
  | .reject => 0x11
  | .illegal => 0x1F
  | .pollNone => 0x20
  | .pollBattery => 0x21
  | .pollCustom => 0x22
  | .crcResult => 0x30

/-- The tag byte of an event (30_encoding.md R92). -/
def Event.tag : Event → Byte
  | .rc _ => 0x01
  | .link _ => 0x02
  | .failsafe _ => 0x03

/-- The code of a decoder state (10_state.md R22). -/
def DecState.code : DecState → BitVec 2
  | .awaitSync => 0
  | .awaitLength => 1
  | .accumulate => 2
  | .awaitCrc => 3

/-- `snr` as the signed value it stands for (43_payload_codecs.md R187). -/
def LinkStats.snrValue (ls : LinkStats) : Int := ls.snr.toInt

/-- `dl_snr` as the signed value it stands for (43_payload_codecs.md R187). -/
def LinkStats.dlSnrValue (ls : LinkStats) : Int := ls.dlSnr.toInt

/-- The outputs of a step that only responds, with value 0x00. -/
def reply (code : RespCode) : StepOutput := { response := { code := code, value := 0 }, events := [], transmit := [] }

/-- Set the step's outputs: `respond`, `emit` and `transmit` of 00_scope.md R10 together. -/
def State.respond (s : State) (o : StepOutput) : State := { s with outputs := s.outputs ++ [o] }

/-! ### The decoder -/

/-- `decoder_reset()` (42_frame_decoder.md R155): `rxbuf` keeps its bytes. -/
def Decoder.toAwaitSync (d : Decoder) : Decoder := { d with state := .awaitSync, idx := 0, len := 0 }

/-! ### Host actions between steps -/

/-- The host presents more bytes on the command port (30_encoding.md R80, R88). -/
def State.present (s : State) (bytes : List Byte) : State := { s with port := s.port ++ bytes }

/-- Power-on reset in the middle of a run (70_reset_and_hazards.md R271): every engine element goes to its reset value.
DESIGN CHOICE (log 12): bytes waiting on the port, which are not engine state (30_encoding.md R88), and the outputs
already observed stay. -/
def State.powerOnReset (s : State) : State := { State.reset with port := s.port, outputs := s.outputs }

end Sys2Proof.Machine
end

