-- ==== Sys2Proof/Machine/Codec.lean ====
section
/-! DEFINITION. The payload codecs (43_payload_codecs.md): the RC and link-statistics unpackers, the telemetry packers,
and the test-side inverses of section 4. `p` is a payload's bytes, p[j] being frame byte 3 + j. -/

namespace Sys2Proof.Machine

/-! ### RC channels -/

/-- `unpack_rc(p)` (R180): channel i is `(P >> 11i) & 0x7FF` of the little-endian payload value P. -/
def unpackRc (p : List Byte) : Vector Channel 16 :=
  Vector.ofFn fun i => BitVec.ofNat 11 ((leValue p >>> (11 * i.val)) &&& 0x7FF)

/-- `P = Σ c[i] · 2^(11i)`, the value `pack_rc` cuts into bytes (R193). -/
def channelsValue : List Channel → Nat
  | [] => 0
  | c :: cs => c.toNat + 2048 * channelsValue cs

/-- `pack_rc(c)` (R193), the test-side inverse of `unpackRc`: `p[j] = (P >> 8j) & 0xFF`. -/
def packRc (c : Vector Channel 16) : List Byte :=
  (List.range 22).map fun j => BitVec.ofNat 8 ((channelsValue c.toList >>> (8 * j)) &&& 0xFF)

/-! ### Link statistics -/

/-- `select_rssi` (R185) under a polarity: with this hardware's (`false`), antenna byte 0 selects `rssi1` and every other
value `rssi2`. -/
def selectRssi (polarity : Bool) (rssi1 rssi2 antenna : Byte) : Byte :=
  if (antenna == 0) != polarity then rssi1 else rssi2

/-- `txpwr_map(i)` (R186) under a table: 0 for an index above 8. -/
def txpwrMap (table : Vector (BitVec 16) 9) (i : Byte) : BitVec 16 := if h : i.toNat < 9 then table[i.toNat] else 0

/-- `unpack_ls(p)` (R183) under the two parameters: one byte a field, in order, and the two derived fields. -/
def unpackLs (polarity : Bool) (table : Vector (BitVec 16) 9) (p : List Byte) : LinkStats :=
  { rssi1 := p.getD 0 0, rssi2 := p.getD 1 0, lq := p.getD 2 0, snr := p.getD 3 0, antenna := p.getD 4 0,
    rfMode := p.getD 5 0, txpwrIdx := p.getD 6 0, dlRssi := p.getD 7 0, dlLq := p.getD 8 0, dlSnr := p.getD 9 0,
    rssi := selectRssi polarity (p.getD 0 0) (p.getD 1 0) (p.getD 4 0), txpwrMw := txpwrMap table (p.getD 6 0) }

/-- `pack_ls(Ls)` (R194), test-side: the ten raw fields. -/
def packLs (ls : LinkStats) : List Byte :=
  [ls.rssi1, ls.rssi2, ls.lq, ls.snr, ls.antenna, ls.rfMode, ls.txpwrIdx, ls.dlRssi, ls.dlLq, ls.dlSnr]

/-! ### Telemetry payloads -/

/-- `pack_bat` (R190): every field big-endian. -/
def packBat (voltage current : BitVec 16) (capacity : BitVec 24) (percent : Byte) : List Byte :=
  [byteOf voltage 1, byteOf voltage 0, byteOf current 1, byteOf current 0, byteOf capacity 2, byteOf capacity 1,
    byteOf capacity 0, percent]

/-- `pack_cus` (R191): the stored bytes, `cus_data[0..cus_len-1]`. -/
def packCus (len : Fin 61) (data : Vector Byte 60) : List Byte := data.toList.take len.val

end Sys2Proof.Machine
end

