-- ==== Sys2Proof/Machine/Flags.lean ====
section
/-! DEFINITION. The engine's flags. It has no condition codes (10_state.md R37): its only flags are `failsafe`,
`pending[k]` and `wr_ovf`, and each is computed here. -/

namespace Sys2Proof.Machine

/-- `fs_eval(Ls, lqt, rst)` (44_failsafe.md R210): unsigned 8-bit comparisons. -/
def fsEval (ls : LinkStats) (lqt rst : Byte) : Bool := decide (ls.lq ≤ lqt) || decide (rst ≤ ls.rssi)

/-- The failsafe event of an update from `old` to `new`: only on an edge (44_failsafe.md R211). -/
def failsafeEvents (old new : Bool) : List Event := if new = old then [] else [.failsafe new]

/-- `pending[k] <- true` (45_telemetry_mux.md R226, R227); nothing but reset clears it (10_state.md R30). -/
def Telemetry.markPending (tel : Telemetry) (k : Kind) : Telemetry := { tel with pending := tel.pending.set k true }

/-- Does an append of n bytes overflow the writer: `wr_cursor + N > TX_CAP` (41_buffer_writer.md R131)? -/
def Writer.overflows (w : Writer) (n : Nat) : Bool := Config.txCap < w.cursor.val + n

/-- Set the sticky flag `wr_ovf` (41_buffer_writer.md R132, R141). -/
def Writer.setOvf (w : Writer) : Writer := { w with ovf := true }

end Sys2Proof.Machine
end

