-- ==== Sys2Proof/Machine/Decoder.lean ====
section
/-! DEFINITION. The frame decoder (42_frame_decoder.md): the four arms of FEED, the dispatch of a CRC-valid frame, and
DRESET. -/

namespace Sys2Proof.Machine

/-- `feed_sync(b)` (R151). -/
def feedSync (b : Byte) (s : State) : Host.Outcome State Fault Refusal :=
  if b = Config.syncA ∨ b = Config.syncB then
    .next ({ s with dec := { s.dec with rxbuf := s.dec.rxbuf.set 0 b, idx := 1, state := .awaitLength } }.respond
      (reply .progress))
  else .next (s.respond (reply .syncDiscard))

/-- `feed_length(b)` (R152). The rejected byte is not looked at again (R158). -/
def feedLength (b : Byte) (s : State) : Host.Outcome State Fault Refusal :=
  if Config.lenMin ≤ b.toNat ∧ b.toNat ≤ Config.lenMax then
    .next ({ s with dec := { rxbuf := s.dec.rxbuf.set 1 b, len := b, idx := 2, state := .accumulate } }.respond
      (reply .progress))
  else .next ({ s with dec := s.dec.toAwaitSync }.respond (reply .lengthReject))

/-- `feed_accumulate(b)` (R153). Faults where `dec_idx + 1` does not fit its 6 bits, in no reachable state (10_state.md
R38; log 6). -/
def feedAccumulate (b : Byte) (s : State) : Host.Outcome State Fault Refusal :=
  if h : s.dec.idx.val + 1 < 64 then
    .next ({ s with dec := { s.dec with
        rxbuf := s.dec.rxbuf.set s.dec.idx b
        idx := ⟨s.dec.idx.val + 1, h⟩
        state := if s.dec.idx.val + 1 = s.dec.len.toNat + 1 then .awaitCrc else .accumulate } }.respond
      (reply .progress))
  else .fault .rxIndex

/-- `rc_dispatch()` and its response (43_payload_codecs.md R181, 42_frame_decoder.md R156). -/
def rcDispatch (s : State) : State :=
  let v := unpackRc (slice s.dec.rxbuf 3 24)
  { s with chan := v }.respond { response := { code := .frameRc, value := 0 }, events := [.rc v], transmit := [] }

/-- `link_dispatch()` and its response (43_payload_codecs.md R184, 42_frame_decoder.md R156), with `failsafe_update`
(44_failsafe.md R211): the link event first, then the failsafe event on an edge. -/
def linkDispatch (s : State) : State :=
  let ls := unpackLs Config.antSelectPolarity Config.txpwrMw (slice s.dec.rxbuf 3 12)
  let f := fsEval ls s.lqThr s.rssiThr
  { s with failsafe := f }.respond
    { response := { code := .frameLink, value := 0 }, events := .link ls :: failsafeEvents s.failsafe f, transmit := [] }

/-- `dispatch(L)` (R156), with `t = rxbuf[2]` and `m = L - 2`. It runs after the decoder reset (R154). -/
def dispatch (len : Nat) (s : State) : State :=
  let t := s.dec.rxbuf[2]
  if t = Config.typeRc then
    if len - 2 = Config.rcPayload then rcDispatch s else s.respond (reply .frameSizeMismatch)
  else if t = Config.typeLs then
    if len - 2 = Config.lsPayload then linkDispatch s else s.respond (reply .frameSizeMismatch)
  else s.respond (reply .frameIgnored)

/-- `feed_crc(b)` (R154): the CRC covers `rxbuf[2..L]`. Faults where that range leaves `rxbuf`, in no reachable state
(10_state.md R38, 20_memory.md R68; log 6). -/
def feedCrc (b : Byte) (s : State) : Host.Outcome State Fault Refusal :=
  if s.dec.len.toNat < 64 then
    let rxbuf := s.dec.rxbuf.set s.dec.idx b
    let len := s.dec.len.toNat
    let c := crc8 (slice rxbuf 2 len)
    let s' := { s with dec := { s.dec with rxbuf := rxbuf }.toAwaitSync }
    if c ≠ b then .next (s'.respond (reply .crcMismatch)) else .next (dispatch len s')
  else .fault .rxIndex

/-- FEED (R150): the arm is chosen by `dec_state`. -/
def execFeed (b : Byte) (s : State) : Host.Outcome State Fault Refusal :=
  match s.dec.state with
  | .awaitSync => feedSync b s
  | .awaitLength => feedLength b s
  | .accumulate => feedAccumulate b s
  | .awaitCrc => feedCrc b s

/-- DRESET (R157). -/
def execDreset (s : State) : Host.Outcome State Fault Refusal :=
  .next ({ s with dec := s.dec.toAwaitSync }.respond (reply .ack))

end Sys2Proof.Machine
end

