-- ==== Sys2Proof/Machine/Failsafe.lean ====
section
/-! DEFINITION. The threshold setters (44_failsafe.md R212 to R214) and the illegal opcodes (30_encoding.md R86). The
comparator is in Flags.lean; its update is in Decoder.lean's link dispatch. -/

namespace Sys2Proof.Machine

/-- SETLQT (R212): `failsafe` is not evaluated again (R214). -/
def execSetlqt (t : Byte) (s : State) : Host.Outcome State Fault Refusal :=
  .next ({ s with lqThr := t }.respond (reply .ack))

/-- SETRST (R213): `failsafe` is not evaluated again (R214). -/
def execSetrst (t : Byte) (s : State) : Host.Outcome State Fault Refusal :=
  .next ({ s with rssiThr := t }.respond (reply .ack))

/-- ILLEGAL (30_encoding.md R86): no state change, response (0x1F, opcode). -/
def execIllegal (op : Byte) (s : State) : Host.Outcome State Fault Refusal :=
  .next (s.respond { response := { code := .illegal, value := op }, events := [], transmit := [] })

end Sys2Proof.Machine
end

