-- ==== Sys2Proof/Machine/Writer.lean ====
section
/-! DEFINITION. The byte-buffer writer (41_buffer_writer.md): its micro-ops over the writer's own state, and one meaning
for each micro-op. DEDUCED (log 10): a micro-op is no command, so it produces no response, event or transmit byte. -/

namespace Sys2Proof.Machine

/-- W_RESET's effect (R130): the buffer's bytes are not cleared. -/
def Writer.start (w : Writer) : Writer := { w with cursor := 0, ovf := false }

/-- `append(N, v)` (R131, R132): all N bytes or none. -/
def Writer.append (n : Nat) (v : BitVec 32) (w : Writer) : Writer :=
  if h : w.cursor.val + n ≤ 64 then
    { w with txbuf := memWrite w.txbuf w.cursor n v, cursor := ⟨w.cursor.val + n, by omega⟩ }
  else w.setOvf

/-- W_PATCH's effect (R141): only a byte below the cursor can be overwritten. -/
def Writer.patch (widx : BitVec 6) (wdata : BitVec 32) (w : Writer) : Writer :=
  if widx.toNat < w.cursor.val then { w with txbuf := w.txbuf.set widx.toNat (lowByte wdata) widx.isLt } else w.setOvf

/-- The writer's content, `txbuf[0..wr_cursor-1]` (R142). -/
def Writer.content (w : Writer) : List Byte := w.txbuf.toList.take w.cursor.val

/-- Run a writer effect on the engine's writer. -/
def State.withWriter (f : Writer → Writer) (s : State) : State := { s with wr := f s.wr }

/-- W_RESET (R130). -/
def execWReset (s : State) : Host.Outcome State Fault Refusal := .next (s.withWriter .start)

/-- W_U8 (R133). -/
def execWU8 (wdata : BitVec 32) (s : State) : Host.Outcome State Fault Refusal := .next (s.withWriter (.append 1 wdata))

/-- W_S8 (R134). -/
def execWS8 (wdata : BitVec 32) (s : State) : Host.Outcome State Fault Refusal := .next (s.withWriter (.append 1 wdata))

/-- W_U16 (R135). -/
def execWU16 (wdata : BitVec 32) (s : State) : Host.Outcome State Fault Refusal := .next (s.withWriter (.append 2 wdata))

/-- W_S16 (R136). -/
def execWS16 (wdata : BitVec 32) (s : State) : Host.Outcome State Fault Refusal := .next (s.withWriter (.append 2 wdata))

/-- W_U24 (R137). -/
def execWU24 (wdata : BitVec 32) (s : State) : Host.Outcome State Fault Refusal := .next (s.withWriter (.append 3 wdata))

/-- W_S24 (R138). -/
def execWS24 (wdata : BitVec 32) (s : State) : Host.Outcome State Fault Refusal := .next (s.withWriter (.append 3 wdata))

/-- W_U32 (R139). -/
def execWU32 (wdata : BitVec 32) (s : State) : Host.Outcome State Fault Refusal := .next (s.withWriter (.append 4 wdata))

/-- W_S32 (R140). -/
def execWS32 (wdata : BitVec 32) (s : State) : Host.Outcome State Fault Refusal := .next (s.withWriter (.append 4 wdata))

/-- W_PATCH (R141). -/
def execWPatch (widx : BitVec 6) (wdata : BitVec 32) (s : State) : Host.Outcome State Fault Refusal :=
  .next (s.withWriter (.patch widx wdata))

/-- W_RESERVED (30_encoding.md R96): "a model refuses these codes rather than giving them a meaning". -/
def execWReserved (wop : BitVec 4) (_s : State) : Host.Outcome State Fault Refusal := .refused (.reservedWriterOp wop)

end Sys2Proof.Machine
end

