-- ==== Sys2Proof/Machine/Telemetry.lean ====
section
/-! DEFINITION. The telemetry setters, the frame encoder and the round-robin multiplexer (45_telemetry_mux.md). -/

namespace Sys2Proof.Machine

/-- SETBAT (R226). -/
def execSetbat (voltage current : BitVec 16) (capacity : BitVec 24) (percent : Byte) (s : State) :
    Host.Outcome State Fault Refusal :=
  .next ({ s with tel := { s.tel with
      batVoltage := voltage
      batCurrent := current
      batCapacity := capacity
      batPercent := percent }.markPending 0 }.respond (reply .ack))

/-- SETCUS (R227): `cus_data[n..59]` keep their old bytes. -/
def execSetcus (data : List Byte) (s : State) : Host.Outcome State Fault Refusal :=
  if h : data.length < 61 then
    .next ({ s with tel := { s.tel with
        cusLen := ⟨data.length, h⟩
        cusData := putBytes s.tel.cusData 0 data }.markPending 1 }.respond (reply .ack))
  else .next (s.respond (reply .reject))

/-- The frame type of a kind (R225). -/
def frameType (k : Kind) : Byte := if k = 0 then Config.typeBat else Config.typeCus

/-- The payload of a kind (R225). -/
def Telemetry.payload (tel : Telemetry) (k : Kind) : List Byte :=
  if k = 0 then packBat tel.batVoltage tel.batCurrent tel.batCapacity tel.batPercent
  else packCus tel.cusLen tel.cusData

/-- W_U8 of each byte of a list in turn. -/
def Writer.appendBytes (w : Writer) (bytes : List Byte) : Writer :=
  bytes.foldl (fun w b => w.append 1 (b.setWidth 32)) w

/-- The payload's appends (R228): W_U16, W_U16, W_U24, W_U8 for the battery, one W_U8 a byte for the custom payload. -/
def Writer.appendPayload (tel : Telemetry) (k : Kind) (w : Writer) : Writer :=
  if k = 0 then
    (((w.append 2 (tel.batVoltage.setWidth 32)).append 2 (tel.batCurrent.setWidth 32)).append 3
      (tel.batCapacity.setWidth 32)).append 1 (tel.batPercent.setWidth 32)
  else w.appendBytes (packCus tel.cusLen tel.cusData)

/-- The frame's head (R228): sync, length placeholder, type. -/
def Writer.header (k : Kind) (w : Writer) : Writer :=
  ((w.start.append 1 (Config.syncTx.setWidth 32)).append 1 0x00).append 1 ((frameType k).setWidth 32)

/-- The frame's end (R228): the length byte is patched to payload size + 2, the CRC of type and payload is appended. -/
def Writer.finish (w : Writer) : Writer :=
  let w := w.patch 1 (BitVec.ofNat 32 (w.cursor.val - 1))
  w.append 1 ((crc8 (w.content.drop 2)).setWidth 32)

/-- `build_frame(k)` (R228), micro-op by micro-op. -/
def buildFrame (tel : Telemetry) (k : Kind) (w : Writer) : Writer := ((w.header k).appendPayload tel k).finish

/-- The first pending kind of the scan `mux_cursor, mux_cursor + 1, …` modulo NKINDS (R229). -/
def Telemetry.nextKind (tel : Telemetry) : Option Kind :=
  ((List.range Config.nKinds).map fun i => tel.muxCursor + Fin.ofNat 2 i).find? fun k => tel.pending[k]

/-- The response of a POLL that emits kind k: 0x21 + k (R229). -/
def pollCode (k : Kind) : RespCode := if k = 0 then .pollBattery else .pollCustom

/-- POLL (R229): `pending` is read and never cleared (R232). -/
def execPoll (s : State) : Host.Outcome State Fault Refusal :=
  match s.tel.nextKind with
  | none => .next (s.respond (reply .pollNone))
  | some k =>
    let w := buildFrame s.tel k s.wr
    .next ({ s with wr := w, tel := { s.tel with muxCursor := k + 1 } }.respond
      { response := { code := pollCode k, value := 0 }, events := [], transmit := w.content })

end Sys2Proof.Machine
end

