-- ==== Sys2Proof/Machine/Dispatch.lean ====
section
/-! DEFINITION. The dispatch: one arm per instruction, each one call of its meaning. -/

namespace Sys2Proof.Machine

def exec (i : Instr) (s : State) : Host.Outcome State Fault Refusal :=
  match i with
  | .feed b => Sys2Proof.Machine.execFeed b s
  | .dreset => Sys2Proof.Machine.execDreset s
  | .setlqt t => Sys2Proof.Machine.execSetlqt t s
  | .setrst t => Sys2Proof.Machine.execSetrst t s
  | .setbat voltage current capacity percent => Sys2Proof.Machine.execSetbat voltage current capacity percent s
  | .setcus data => Sys2Proof.Machine.execSetcus data s
  | .poll => Sys2Proof.Machine.execPoll s
  | .crc data => Sys2Proof.Machine.execCrc data s
  | .illegal op => Sys2Proof.Machine.execIllegal op s
  | .wReset => Sys2Proof.Machine.execWReset s
  | .wU8 wdata => Sys2Proof.Machine.execWU8 wdata s
  | .wS8 wdata => Sys2Proof.Machine.execWS8 wdata s
  | .wU16 wdata => Sys2Proof.Machine.execWU16 wdata s
  | .wS16 wdata => Sys2Proof.Machine.execWS16 wdata s
  | .wU24 wdata => Sys2Proof.Machine.execWU24 wdata s
  | .wS24 wdata => Sys2Proof.Machine.execWS24 wdata s
  | .wU32 wdata => Sys2Proof.Machine.execWU32 wdata s
  | .wS32 wdata => Sys2Proof.Machine.execWS32 wdata s
  | .wPatch widx wdata => Sys2Proof.Machine.execWPatch widx wdata s
  | .wReserved wop => Sys2Proof.Machine.execWReserved wop s

end Sys2Proof.Machine
end

