-- ==== Sys2Proof/Machine/Fetch.lean ====
section
/-! DEFINITION. Where a step's instruction comes from: the writer's internal bus or the command port. -/

namespace Sys2Proof.Machine

/-- The next instruction and the state once its words are taken, or why there is none yet. A control word waiting on the
writer's internal bus goes first (DESIGN CHOICE, log 3); otherwise the command port's stream is cut (30_encoding.md
R80, R88). -/
def fetch (s : State) : Except Hold (Instr × State) :=
  match s.ctl with
  | some w => .ok (decodeControl w, { s with ctl := none })
  | none =>
    match decodeCommand s.port with
    | .ok (i, rest) => .ok (i, { s with port := rest })
    | .error why => .error why

/-- The step taken while the stream holds no complete command: DESIGN CHOICE (log 2), it answers the same state
(30_encoding.md R88: "the engine waits"), until the host presents the missing bytes. -/
def hold (_why : Hold) (s : State) : Host.Outcome State Fault Refusal := .next s

/-- Place a word of the opcode table where the next step fetches it: a control word on the writer's bus, or a command's
own bytes at the front of the port with the bus empty (log 11). -/
def State.placeTableWord (s : State) (nbits w : Nat) : State :=
  if isControlRow nbits then { s with ctl := some (BitVec.ofNat 48 w) }
  else
    let bytes := tableBytes nbits w
    { s with ctl := none, port := bytes.take (commandLength (bytes.getD 0 0) (bytes.getD 1 0)) ++ s.port }

end Sys2Proof.Machine
end

