-- ==== Sys2Proof/Machine/Run.lean ====
section
/-! DEFINITION. Runs (70_reset_and_hazards.md R278): instructions executed one after another, steps, and the run of the
command stream a state holds. -/

namespace Sys2Proof.Machine

/-- Execute instructions in order, stopping at the first fault or refusal. -/
def execAll : List Instr → State → Host.Outcome State Fault Refusal
  | [], s => .next s
  | i :: is, s =>
    match exec i s with
    | .next t => execAll is t
    | .fault r => .fault r
    | .refused r => .refused r

/-- `n` steps, stopping at the first fault or refusal. -/
def stepN : Nat → State → Host.Outcome State Fault Refusal
  | 0, s => .next s
  | n + 1, s =>
    match step s with
    | .next t => stepN n t
    | .fault r => .fault r
    | .refused r => .refused r

/-- The run of the stream on the port (R278): every command takes at least one byte, so as many steps as there are
bytes execute every complete command; the steps left over hold. -/
def runStream (s : State) : Host.Outcome State Fault Refusal := stepN s.port.length s

/-- The outputs of the steps between two states of a run (R278). -/
def outputsSince (s t : State) : List StepOutput := t.outputs.drop s.outputs.length

/-- The bytes of a list of commands, one after another. -/
def commandsBytes (is : List Instr) : List Byte := is.flatMap commandBytes

/-- `FEEDS [b0, …]` (30_encoding.md R98). -/
def feeds (bytes : List Byte) : List Instr := bytes.map .feed

/-- The bytes of a frame: sync, length, type, payload, CRC8 over type and payload (00_scope.md R13, 30_encoding.md R98
`FRAME`, 45_telemetry_mux.md R230). -/
def frameBytes (sync type : Byte) (payload : List Byte) : List Byte :=
  sync :: BitVec.ofNat 8 (payload.length + 2) :: type :: payload ++ [crc8 (type :: payload)]

end Sys2Proof.Machine
end

