-- ==== Sys2Proof/Machine/Asm.lean ====
section
/-! DEFINITION. The assembler of command-stream programs (30_encoding.md R97, R98): lines as data, their bytes, and the
text they are written in. The engine sees only the bytes. -/

namespace Sys2Proof.Machine

/-! ### Lines and their bytes -/

/-- One line of a program: a command of R97 or a pseudo-instruction of R98, its operands as written. -/
inductive AsmLine where
  | feed (b : Nat)
  | dreset
  | setlqt (t : Nat)
  | setrst (t : Nat)
  | setbat (voltage current capacity percent : Nat)
  | setcus (data : List Nat)
  | poll
  | crc (data : List Nat)
  | feeds (bytes : List Nat)
  | frame (sync type : Nat) (payload : List Nat)
  | rcframe (channels : List Nat)
  | lsframe (payload : List Nat)
  | byte (b : Nat)
  deriving DecidableEq, Repr

/-- A value as a field of w bits: "An operand value that does not fit its field is an assembly error" (R97). -/
def fit (w n : Nat) : Option (BitVec w) := if n < 2 ^ w then some (BitVec.ofNat w n) else none

/-- A list of values, each as a field of w bits. -/
def fitAll (w : Nat) : List Nat → Option (List (BitVec w))
  | [] => some []
  | n :: ns =>
    match fit w n, fitAll w ns with
    | some b, some bs => some (b :: bs)
    | _, _ => none

/-- `FRAME s, t, [p…]` with at most 60 payload bytes (R98). -/
def assembleFrame (sync type : Byte) (payload : List Byte) : Option (List Byte) :=
  if payload.length ≤ 60 then some (commandsBytes (feeds (frameBytes sync type payload))) else none

/-- `RCFRAME [c0, …, c15]` (R98). -/
def assembleRc (channels : List Channel) : Option (List Byte) :=
  if h : channels.length = 16 then assembleFrame Config.syncA Config.typeRc (packRc ⟨channels.toArray, by simp [h]⟩)
  else none

/-- `LSFRAME [p0, …, p9]` (R98). -/
def assembleLs (payload : List Byte) : Option (List Byte) :=
  if payload.length = 10 then assembleFrame Config.syncA Config.typeLs payload else none

/-- The bytes of an FN command: its count must fit one byte (R81, R97). -/
def assembleFN (mk : List Byte → Instr) (data : List Byte) : Option (List Byte) :=
  if data.length ≤ 255 then some (commandBytes (mk data)) else none

/-- The stream bytes of one line, or `none` for an assembly error (R97, R98). -/
def assembleLine : AsmLine → Option (List Byte)
  | .feed b => (fit 8 b).map fun b => commandBytes (.feed b)
  | .dreset => some (commandBytes .dreset)
  | .setlqt t => (fit 8 t).map fun t => commandBytes (.setlqt t)
  | .setrst t => (fit 8 t).map fun t => commandBytes (.setrst t)
  | .setbat v c k p =>
    match fit 16 v, fit 16 c, fit 24 k, fit 8 p with
    | some v, some c, some k, some p => some (commandBytes (.setbat v c k p))
    | _, _, _, _ => none
  | .setcus data => (fitAll 8 data).bind (assembleFN .setcus)
  | .poll => some (commandBytes .poll)
  | .crc data => (fitAll 8 data).bind (assembleFN .crc)
  | .feeds bytes => (fitAll 8 bytes).map fun bs => commandsBytes (feeds bs)
  | .frame s t payload =>
    match fit 8 s, fit 8 t, fitAll 8 payload with
    | some s, some t, some p => assembleFrame s t p
    | _, _, _ => none
  | .rcframe channels => (fitAll 11 channels).bind assembleRc
  | .lsframe payload => (fitAll 8 payload).bind assembleLs
  | .byte b => (fit 8 b).map fun b => [b]

/-- The stream bytes of a program, line by line. -/
def assemble : List AsmLine → Option (List Byte)
  | [] => some []
  | l :: ls =>
    match assembleLine l, assemble ls with
    | some bs, some rest => some (bs ++ rest)
    | _, _ => none

/-! ### The text of a line

R97: `MNEMONIC operands`, `;` starts a comment, numbers are decimal or hexadecimal with `0x`. DESIGN CHOICE (log 14):
blanks are spaces, tabs and carriage returns, they separate tokens and mean nothing else; capitals count in mnemonics;
a line without tokens is empty. -/

/-- A token of a line. -/
inductive Token where
  | word (name : List Char)
  | num (n : Nat)
  | comma
  | open
  | close
  deriving DecidableEq, Repr

/-- The value of a digit in the given base. -/
def digitValue (base : Nat) (c : Char) : Option Nat :=
  let n := c.toNat
  let v :=
    if 48 ≤ n ∧ n ≤ 57 then n - 48 else if 97 ≤ n ∧ n ≤ 102 then n - 87 else if 65 ≤ n ∧ n ≤ 70 then n - 55 else base
  if v < base then some v else none

/-- The value of a digit string in the given base, after the digits already read. -/
def digitsValue (base : Nat) : Nat → List Char → Option Nat
  | acc, [] => some acc
  | acc, c :: cs =>
    match digitValue base c with
    | some d => digitsValue base (acc * base + d) cs
    | none => none

/-- A number if it begins with a digit, else a word. -/
def classify (cs : List Char) : Option Token :=
  match cs with
  | '0' :: 'x' :: c :: hs => (digitsValue 16 0 (c :: hs)).map .num
  | c :: _ => if (digitValue 10 c).isSome then (digitsValue 10 0 cs).map .num else some (.word cs)
  | [] => none

/-- End the token being read, if there is one, before the tokens after it. -/
def endToken (acc : List Char) (rest : Option (List Token)) : Option (List Token) :=
  if acc.isEmpty then rest
  else
    match classify acc.reverse, rest with
    | some t, some ts => some (t :: ts)
    | _, _ => none

/-- The tokens of a line, `acc` holding the letters of the one being read, last letter first. -/
def tokens (acc : List Char) : List Char → Option (List Token)
  | [] => endToken acc (some [])
  | c :: cs =>
    if c = ';' then endToken acc (some [])
    else if c = ' ' ∨ c = '\t' ∨ c = '\r' then endToken acc (tokens [] cs)
    else if c = ',' then endToken acc ((tokens [] cs).map (.comma :: ·))
    else if c = '[' then endToken acc ((tokens [] cs).map (.open :: ·))
    else if c = ']' then endToken acc ((tokens [] cs).map (.close :: ·))
    else tokens (c :: acc) cs

/-- An operand: a number or a bracketed list. -/
inductive Arg where
  | num (n : Nat)
  | list (ns : List Nat)
  deriving DecidableEq, Repr

/-- What stands just before a token of the operands. -/
inductive Before where
  | start
  | item
  | comma
  deriving DecidableEq, Repr

/-- The operands of a line: items with commas between them. `cur` is the bracketed list being read. -/
def operands (done : List Arg) (cur : Option (List Nat)) (before : Before) : List Token → Option (List Arg)
  | [] => if cur.isNone ∧ before ≠ .comma then some done else none
  | .num n :: ts =>
    if before = .item then none
    else
      match cur with
      | none => operands (done ++ [.num n]) none .item ts
      | some ns => operands done (some (ns ++ [n])) .item ts
  | .comma :: ts => if before = .item then operands done cur .comma ts else none
  | .open :: ts => if cur.isNone ∧ before ≠ .item then operands done (some []) .start ts else none
  | .close :: ts =>
    match cur with
    | some ns => if before = .comma then none else operands (done ++ [.list ns]) none .item ts
    | none => none
  | .word _ :: _ => none

/-- The line a mnemonic and its operands make (the tables of R97 and R98). -/
def lineOf (name : String) (args : List Arg) : Option AsmLine :=
  match name, args with
  | "FEED", [.num b] => some (.feed b)
  | "DRESET", [] => some .dreset
  | "SETLQT", [.num t] => some (.setlqt t)
  | "SETRST", [.num t] => some (.setrst t)
  | "SETBAT", [.num v, .num c, .num k, .num p] => some (.setbat v c k p)
  | "SETCUS", [.list ds] => some (.setcus ds)
  | "POLL", [] => some .poll
  | "CRC", [.list ds] => some (.crc ds)
  | "FEEDS", [.list bs] => some (.feeds bs)
  | "FRAME", [.num s, .num t, .list ps] => some (.frame s t ps)
  | "RCFRAME", [.list cs] => some (.rcframe cs)
  | "LSFRAME", [.list ps] => some (.lsframe ps)
  | ".BYTE", [.num b] => some (.byte b)
  | _, _ => none

/-- One line of text: its lines of program (none or one), or an assembly error. -/
def parseLine (cs : List Char) : Option (List AsmLine) :=
  match tokens [] cs with
  | some [] => some []
  | some (.word name :: ts) =>
    match operands [] none .start ts with
    | some args => (lineOf (String.ofList name) args).map fun l => [l]
    | none => none
  | _ => none

/-- Cut a text at its line ends, `acc` holding the letters of the line being read, last letter first. -/
def textLines (acc : List Char) : List Char → List (List Char)
  | [] => [acc.reverse]
  | c :: cs => if c = '\n' then acc.reverse :: textLines [] cs else textLines (c :: acc) cs

/-- A program's lines, or an assembly error. -/
def parseLines : List (List Char) → Option (List AsmLine)
  | [] => some []
  | cs :: rest =>
    match parseLine cs, parseLines rest with
    | some l, some ls => some (l ++ ls)
    | _, _ => none

/-- Assemble a program's text (R97, R98). -/
def assembleText (text : List Char) : Option (List Byte) :=
  match parseLines (textLines [] text) with
  | some ls => assemble ls
  | none => none

end Sys2Proof.Machine
end

