-- ==== Sys2Proof/Machine/Instances.lean ====
section
/-! DEFINITION. Several engines side by side (60_exceptions.md R262): the product of independent machines. -/

namespace Sys2Proof.Machine

/-- A step of engine k of a bank: the others do not move. An index past the bank addresses no engine and moves none. -/
def stepAt (k : Nat) (bank : List State) : Host.Outcome (List State) Fault Refusal :=
  match bank[k]? with
  | none => .next bank
  | some s =>
    match step s with
    | .next t => .next (bank.set k t)
    | .fault r => .fault r
    | .refused r => .refused r

end Sys2Proof.Machine
end

