-- ==== Sys2Proof/Safety.lean ====
section
/-! DEFINITION. What a legal state and a legal run are: the decoder invariant of 10_state.md R38, the machine invariant,
and the terms the statements use. -/

namespace Sys2Proof.Machine

/-- 10_state.md R38, row by row. Its clauses "were written since the last AWAIT_SYNC" speak of a run, not of a state:
a statement about fed bytes says them. -/
abbrev Decoder.Inv (d : Decoder) : Prop :=
  (d.state = .awaitSync → d.idx.val = 0 ∧ d.len = 0) ∧
  (d.state = .awaitLength → d.idx.val = 1 ∧ (d.rxbuf[0] = 0xC8 ∨ d.rxbuf[0] = 0xEE)) ∧
  (d.state = .accumulate →
    2 ≤ d.len.toNat ∧ d.len.toNat ≤ 62 ∧ d.rxbuf[1] = d.len ∧ 2 ≤ d.idx.val ∧ d.idx.val ≤ d.len.toNat) ∧
  (d.state = .awaitCrc → 2 ≤ d.len.toNat ∧ d.len.toNat ≤ 62 ∧ d.idx.val = d.len.toNat + 1)

/-- The machine's invariant: R38; `wr_ovf` is never set by a command (10_state.md R36, 45_telemetry_mux.md R233); no
command puts a word on the writer's bus (30_encoding.md R94). -/
abbrev State.Inv (s : State) : Prop := s.dec.Inv ∧ s.wr.ovf = false ∧ s.ctl = none

/-- The decoder waits for a sync byte, as after reset, DRESET or the end of a frame. -/
abbrev State.AtSync (s : State) : Prop := s.dec.state = .awaitSync ∧ s.dec.idx.val = 0 ∧ s.dec.len = 0

/-- The event lists a step can have (30_encoding.md R92, 60_exceptions.md R255). -/
inductive LegalEvents : List Event → Prop where
  | none : LegalEvents []
  | rc (ch : Vector Channel 16) : LegalEvents [.rc ch]
  | link (ls : LinkStats) : LegalEvents [.link ls]
  | linkFailsafe (ls : LinkStats) (active : Bool) : LegalEvents [.link ls, .failsafe active]

/-- The engine state in which a CRC byte leaves the decoder, whatever the comparison says: the byte is stored and the
decoder is back in AWAIT_SYNC (42_frame_decoder.md R154, R155). -/
def State.afterCrc (s : State) (b : Byte) : State :=
  { s with dec := { state := .awaitSync, idx := 0, len := 0, rxbuf := s.dec.rxbuf.set s.dec.idx b } }

/-- Payload byte j of the frame in the receive buffer, frame byte 3 + j (43_payload_codecs.md). -/
def State.payloadByte (s : State) (j : Nat) : Byte := s.dec.rxbuf.toList.getD (3 + j) 0

/-- The n low bytes of a number, most significant first (20_memory.md R63). -/
def bigEndian (n v : Nat) : List Byte := (List.range n).map fun j => BitVec.ofNat 8 (v / 256 ^ (n - 1 - j))

/-- What appending `bytes` to a writer does (41_buffer_writer.md R131, R132): all of them or none. -/
def AppendsBytes (bytes : List Byte) (w w' : Writer) : Prop :=
  (w.cursor.val + bytes.length ≤ 64 →
    w'.cursor.val = w.cursor.val + bytes.length ∧ w'.ovf = w.ovf ∧
    ∀ (j : Nat) (h : j < 64), w'.txbuf[j] =
      if w.cursor.val ≤ j ∧ j < w.cursor.val + bytes.length then bytes.getD (j - w.cursor.val) 0 else w.txbuf[j]) ∧
  (64 < w.cursor.val + bytes.length → w' = { w with ovf := true })

/-- The micro-ops of `build_frame(k)` up to its W_PATCH (45_telemetry_mux.md R228). -/
def frameOps (tel : Telemetry) (k : Kind) : List Instr :=
  [.wReset, .wU8 0xC8, .wU8 0x00, .wU8 (if k = 0 then 0x08 else 0x7F)] ++
    if k = 0 then
      [.wU16 (tel.batVoltage.setWidth 32), .wU16 (tel.batCurrent.setWidth 32), .wU24 (tel.batCapacity.setWidth 32),
        .wU8 (tel.batPercent.setWidth 32)]
    else (tel.cusData.toList.take tel.cusLen.val).map fun b => .wU8 (b.setWidth 32)

/-- The frame bytes of a kind's pending telemetry value (45_telemetry_mux.md R225, R230), field by field. -/
def telemetryFrame (tel : Telemetry) (k : Kind) : List Byte :=
  if k = 0 then
    frameBytes 0xC8 0x08 (bigEndian 2 tel.batVoltage.toNat ++ bigEndian 2 tel.batCurrent.toNat ++
      bigEndian 3 tel.batCapacity.toNat ++ [tel.batPercent])
  else frameBytes 0xC8 0x7F (tel.cusData.toList.take tel.cusLen.val)

/-- The bytes a list of instructions feeds to the decoder, in order. -/
def fedBytes : List Instr → List Byte
  | [] => []
  | .feed b :: is => b :: fedBytes is
  | _ :: is => fedBytes is

/-- The link-quality threshold after a list of instructions: the last one set (44_failsafe.md R212). -/
def lqThrAfter : List Instr → Byte → Byte
  | [], t => t
  | .setlqt x :: is, _ => lqThrAfter is x
  | _ :: is, t => lqThrAfter is t

/-- The RSSI threshold after a list of instructions: the last one set (44_failsafe.md R213). -/
def rssiThrAfter : List Instr → Byte → Byte
  | [], t => t
  | .setrst y :: is, _ => rssiThrAfter is y
  | _ :: is, t => rssiThrAfter is t

/-- The kind the next POLL serves: pending, and either at the cursor or reached because the cursor's kind is not pending
(45_telemetry_mux.md R229). -/
abbrev Telemetry.Serves (tel : Telemetry) (k : Kind) : Prop :=
  tel.pending[k] = true ∧ (k = tel.muxCursor ∨ tel.pending[tel.muxCursor] = false)

end Sys2Proof.Machine
end

