-- ==== Sys2Proof/Certificates/Slice0/Obligations.lean ====
section
/-! DEFINITION. The statements for the provers. Each docstring names the rule it formalises; where a clause rests on the
model's choice or on an inference the spec marks as its own, the docstring says so. -/

open Sys2Proof Sys2Proof.Machine

/-! ### Reset, steps and runs -/

/-- R270: power-on reset sets every state element to its reset value, from any state. -/
def Obligations.PowerOnResetSetsEveryElement : Prop :=
  (State.reset.dec.state = .awaitSync ∧ State.reset.dec.idx.val = 0 ∧ State.reset.dec.len = 0 ∧
    (∀ (j : Nat) (h : j < 64), State.reset.dec.rxbuf[j] = 0) ∧ (∀ (j : Nat) (h : j < 16), State.reset.chan[j] = 0) ∧
    State.reset.failsafe = false ∧ State.reset.lqThr = 70 ∧ State.reset.rssiThr = 105 ∧
    (∀ k : Kind, State.reset.tel.pending[k] = false) ∧ State.reset.tel.batVoltage = 0 ∧
    State.reset.tel.batCurrent = 0 ∧ State.reset.tel.batCapacity = 0 ∧ State.reset.tel.batPercent = 0 ∧
    State.reset.tel.cusLen.val = 0 ∧ (∀ (j : Nat) (h : j < 60), State.reset.tel.cusData[j] = 0) ∧
    State.reset.tel.muxCursor = 0 ∧ (∀ (j : Nat) (h : j < 64), State.reset.wr.txbuf[j] = 0) ∧
    State.reset.wr.cursor.val = 0 ∧ State.reset.wr.ovf = false) ∧
  ∀ s : State, s.powerOnReset.dec = State.reset.dec ∧ s.powerOnReset.chan = State.reset.chan ∧
    s.powerOnReset.failsafe = State.reset.failsafe ∧ s.powerOnReset.lqThr = State.reset.lqThr ∧
    s.powerOnReset.rssiThr = State.reset.rssiThr ∧ s.powerOnReset.tel = State.reset.tel ∧
    s.powerOnReset.wr = State.reset.wr

/-- The state after reset meets the machine's invariant. Derived: 10_state.md section 7, which the spec marks as derived
("In every reachable state the following hold"), and logs 1 and 3 for the model's own fields. -/
def Obligations.ResetStateIsLegal : Prop := State.reset.Inv

/-- Every step from a legal state that answers a next state answers a legal one. Derived: 10_state.md section 7, marked
derived by the spec ("In every reachable state the following hold"), `wr_ovf` never set by a command (10_state.md R36,
45_telemetry_mux.md section 4), and log 3 for the writer's bus. -/
def Obligations.StepKeepsTheInvariant : Prop := ∀ s t : State, s.Inv → step s = .next t → t.Inv

/-- No error stops the engine: every step from a legal state answers a next state, and a decoder failure leaves the
decoder waiting for a sync byte. Derived: 60_exceptions.md section 1 ("No error is fatal."). That a held command answers
the same state is the model's choice (log 2). -/
def Obligations.NoErrorStopsTheEngine : Prop :=
  ∀ s : State, s.Inv → ∃ t, step s = .next t ∧
    ∀ o, t.outputs = s.outputs ++ [o] →
      o.response.code ∈ [.syncDiscard, .lengthReject, .crcMismatch, .frameIgnored, .frameSizeMismatch] → t.AtSync

/-- A step runs the instruction it fetches: the first command of the port, or the control word on the writer's bus, which
goes first (the model's choice, log 3); with no complete command it holds (the model's choice, log 2). -/
def Obligations.StepRunsTheFetchedInstruction : Prop :=
  (∀ (s : State) (i : Instr) (rest : List Byte), s.ctl = none → decodeCommand s.port = .ok (i, rest) →
    step s = exec i { s with port := rest }) ∧
  (∀ (s : State) (w : ControlWord), s.ctl = some w → step s = exec (decodeControl w) { s with ctl := none }) ∧
  (∀ (s : State) (why : Hold), s.ctl = none → decodeCommand s.port = .error why → step s = .next s)

/-- An incomplete command is held unexecuted, and the bytes that complete it let it run; a complete command is cut the
same whatever follows it. Derived: 30_encoding.md section 2 (R88); that a hold is a step that changes nothing is the model's choice
(log 2). -/
def Obligations.HeldCommandRunsOnceComplete : Prop :=
  (∀ (bs more : List Byte) (i : Instr) (rest : List Byte), decodeCommand bs = .ok (i, rest) →
    decodeCommand (bs ++ more) = .ok (i, rest ++ more)) ∧
  (∀ (s : State) (more : List Byte) (why : Hold) (i : Instr) (rest : List Byte), s.ctl = none →
    decodeCommand s.port = .error why → decodeCommand (s.port ++ more) = .ok (i, rest) →
    step s = .next s ∧ step (s.present more) = exec i { s with port := rest })

/-- The commands of a stream run one at a time, in stream order, and a trailing incomplete command is left on the port.
Derived: 30_encoding.md sections 1 and 2 (R80, R88), 70_reset_and_hazards.md section 5 (R278); the port is the model's
field (log 1). -/
def Obligations.StreamRunsItsCommandsInOrder : Prop :=
  ∀ (s : State) (is : List Instr) (tail : List Byte) (why : Hold),
    (∀ i ∈ is, i.wellFormed = true ∧ i.isCommand = true) → s.ctl = none →
    s.port = commandsBytes is ++ tail → decodeCommand tail = .error why →
    runStream s = execAll is { s with port := tail }

/-- Whatever bytes the host presents, the run from a legal state ends in a legal state with no complete command left.
Derived: 70_reset_and_hazards.md section 5 (R278), 60_exceptions.md section 1 (R251); the port is the model's field
(log 1). -/
def Obligations.AnyStreamRunsToItsEnd : Prop :=
  ∀ (s : State) (bytes : List Byte), s.Inv →
    ∃ (t : State) (why : Hold), runStream (s.present bytes) = .next t ∧ t.Inv ∧ decodeCommand t.port = .error why

/-! ### Encoding -/

/-- One word of each format and family, written out from 30_encoding.md R81, R82, R84, R94, R95 and
95_test_vectors.md 2.2, decodes to the instruction it stands for. -/
def Obligations.SampleWordsDecode : Prop :=
  decodeCommand [0x01, 0xC8] = .ok (.feed 0xC8, []) ∧
  decodeCommand [0x02] = .ok (.dreset, []) ∧
  decodeCommand [0x03, 0x32, 0x07] = .ok (.setlqt 50, [0x07]) ∧
  decodeCommand [0x05, 0x01, 0x02, 0x03, 0x04, 0x05, 0x06, 0x07, 0x08] = .ok (.setbat 0x0102 0x0304 0x050607 0x08, []) ∧
  decodeCommand [0x06, 0x03, 0xAA, 0xBB, 0xCC] = .ok (.setcus [0xAA, 0xBB, 0xCC], []) ∧
  decodeCommand [0x08, 0x00] = .ok (.crc [], []) ∧
  decodeCommand [0x09] = .ok (.illegal 0x09, []) ∧
  decodeCommand [0x05, 0x01, 0x02, 0x03] = .error .noFields ∧
  decodeControl 0x2000FFFFFFFD = .wS8 0xFFFFFFFD ∧
  decodeControl 0x300000000102 = .wU16 0x0102 ∧
  decodeControl 0x90400000000A = .wPatch 1 0x0A ∧
  decodeControl 0xA00000000000 = .wReserved 0xA

/-- Decoding what the encoder writes gives the instruction back, whatever follows it on the port. Derived: 30_encoding.md
sections 1 and 4. -/
def Obligations.DecodeOfEncodeIsTheInstruction : Prop :=
  ∀ i : Instr, i.wellFormed = true →
    match encode i with
    | .command bytes => ∀ rest, decodeCommand (bytes ++ rest) = .ok (i, rest)
    | .control w => decodeControl w = i

/-- Every byte string that holds a command begins with the encoding of the well-formed command it decodes to, so no two
byte strings mean the same command. Derived: 30_encoding.md sections 1 and 2. -/
def Obligations.DecodedBytesAreTheEncoding : Prop :=
  ∀ (bs : List Byte) (i : Instr) (rest : List Byte), decodeCommand bs = .ok (i, rest) →
    i.wellFormed = true ∧ ∃ bytes, encode i = .command bytes ∧ bs = bytes ++ rest

/-- R83: the length of a command by its first byte and, for FN, its second, and the decoder cuts exactly that many
bytes. -/
def Obligations.CommandLengthIsDecidedByTwoBytes : Prop :=
  (∀ op next : Byte, commandLength op next =
    if op = 0x02 ∨ op = 0x07 then 1
    else if op = 0x01 ∨ op = 0x03 ∨ op = 0x04 then 2
    else if op = 0x05 then 9
    else if op = 0x06 ∨ op = 0x08 then 2 + next.toNat
    else 1) ∧
  (∀ (op : Byte) (bs : List Byte),
    (commandLength op (bs.getD 0 0) ≤ bs.length + 1 →
      ∃ i, decodeCommand (op :: bs) = .ok (i, (op :: bs).drop (commandLength op (bs.getD 0 0)))) ∧
    (bs.length + 1 < commandLength op (bs.getD 0 0) → ∃ why, decodeCommand (op :: bs) = .error why))

/-- R86: an illegal opcode is a one-byte command that changes no state and responds (0x1F, op). -/
def Obligations.IllegalOpcodesOnlyRespond : Prop :=
  ∀ (op : Byte) (rest : List Byte) (s : State), op = 0x00 ∨ 9 ≤ op.toNat →
    decodeCommand (op :: rest) = .ok (.illegal op, rest) ∧
    exec (.illegal op) s = .next { s with outputs := s.outputs ++ [⟨⟨.illegal, op⟩, [], []⟩] } ∧
    RespCode.illegal.toByte = 0x1F

/-- The writer micro-op map and the places of the control word's fields. Derived: 30_encoding.md section 4. That bits
the opcode table's masks do not test are ignored is the model's choice (log 5). -/
def Obligations.ControlWordSelectsTheMicroOp : Prop :=
  (∀ (o : BitVec 4) (i : BitVec 6) (d : BitVec 32),
    (controlWord o i d).toNat = o.toNat * 2 ^ 44 + i.toNat * 2 ^ 38 + d.toNat) ∧
  (∀ (i : BitVec 6) (d : BitVec 32),
    decodeControl (controlWord 0x0 i d) = .wReset ∧ decodeControl (controlWord 0x1 i d) = .wU8 d ∧
    decodeControl (controlWord 0x2 i d) = .wS8 d ∧ decodeControl (controlWord 0x3 i d) = .wU16 d ∧
    decodeControl (controlWord 0x4 i d) = .wS16 d ∧ decodeControl (controlWord 0x5 i d) = .wU24 d ∧
    decodeControl (controlWord 0x6 i d) = .wS24 d ∧ decodeControl (controlWord 0x7 i d) = .wU32 d ∧
    decodeControl (controlWord 0x8 i d) = .wS32 d ∧ decodeControl (controlWord 0x9 i d) = .wPatch i d)

/-- Micro-op codes 0xA to 0xF are refused; no step puts a word on the writer's bus; the encoder's micro-ops for a frame, which
PollServesTheNextPendingKind ties to POLL, are none of them, and every POLL completes. Derived: 30_encoding.md section 4 (R94
and R96, "The encoder never issues them."); the bus is the model's field (log 3). -/
def Obligations.ReservedMicroOpsAreRefused : Prop :=
  (∀ (wop : BitVec 4) (i : BitVec 6) (d : BitVec 32) (s : State), 10 ≤ wop.toNat →
    decodeControl (controlWord wop i d) = .wReserved wop ∧
    exec (.wReserved wop) s = .refused (.reservedWriterOp wop)) ∧
  (∀ s t : State, s.ctl = none → step s = .next t → t.ctl = none) ∧
  (∀ (tel : Telemetry) (k : Kind), ∀ i ∈ frameOps tel k, ∀ wop : BitVec 4, i ≠ .wReserved wop) ∧
  (∀ s : State, ∃ t, exec .poll s = .next t)

/-! ### Outputs -/

/-- R89: every command's step produces exactly one response with its event list and transmit list; the event list is one
R92 allows. -/
def Obligations.EveryCommandProducesOneOutput : Prop :=
  ∀ (i : Instr) (s t : State), i.isCommand = true → exec i s = .next t →
    ∃ o, t.outputs = s.outputs ++ [o] ∧ LegalEvents o.events

/-- Events come only from frames: a FEED that dispatches an RC frame emits exactly the new channel table, one that
dispatches a link-statistics frame emits its record and then a failsafe event exactly when the flag changed; nothing else
emits. Derived: 60_exceptions.md section 2 (R255, marked derived by the spec: "Events have a fixed priority and
order."). -/
def Obligations.EventsComeOnlyFromFrames : Prop :=
  ∀ (i : Instr) (s t : State) (o : StepOutput), exec i s = .next t → t.outputs = s.outputs ++ [o] →
    (o.response.code = .frameRc → (∃ b, i = .feed b) ∧ o.events = [.rc t.chan]) ∧
    (o.response.code = .frameLink → (∃ b, i = .feed b) ∧
      ∃ ls, o.events = .link ls :: (if t.failsafe = s.failsafe then [] else [.failsafe t.failsafe])) ∧
    (o.response.code ≠ .frameRc → o.response.code ≠ .frameLink → o.events = [])

/-- R90: the code bytes, and which command responds with which code and value. -/
def Obligations.ResponsesFollowTheCodeTable : Prop :=
  ([RespCode.progress, .syncDiscard, .lengthReject, .crcMismatch, .frameRc, .frameLink, .frameIgnored,
    .frameSizeMismatch, .ack, .reject, .illegal, .pollNone, .pollBattery, .pollCustom, .crcResult].map RespCode.toByte =
    [0x00, 0x01, 0x02, 0x03, 0x04, 0x05, 0x06, 0x07, 0x10, 0x11, 0x1F, 0x20, 0x21, 0x22, 0x30]) ∧
  ∀ (i : Instr) (s t : State) (o : StepOutput), exec i s = .next t → t.outputs = s.outputs ++ [o] →
    match i with
    | .feed _ => o.response.code.toByte.toNat ≤ 7 ∧ o.response.value = 0
    | .dreset | .setlqt _ | .setrst _ | .setbat _ _ _ _ => o.response = ⟨.ack, 0⟩
    | .setcus data => o.response = ⟨if 60 < data.length then .reject else .ack, 0⟩
    | .poll => (o.response = ⟨.pollNone, 0⟩ ∧ ∀ k : Kind, s.tel.pending[k] = false) ∨
        ∃ k, s.tel.Serves k ∧ o.response = ⟨if k = 0 then .pollBattery else .pollCustom, 0⟩ ∧ o.transmit ≠ []
    | .crc data => o.response = ⟨.crcResult, crc8 data⟩
    | .illegal op => o.response = ⟨.illegal, op⟩
    | _ => False

/-- The transmit list is empty for every command except a POLL that emits a frame, and then it is exactly that one frame.
Derived: 30_encoding.md section 3 (R93) and 45_telemetry_mux.md section 3 (R230, the frame's bytes, marked derived by the
spec). -/
def Obligations.OnlyAPollTransmits : Prop :=
  ∀ (i : Instr) (s t : State) (o : StepOutput), exec i s = .next t → t.outputs = s.outputs ++ [o] →
    (o.transmit = [] ∧ (i = .poll → o.response.code = .pollNone)) ∨
    (i = .poll ∧ ∃ k, s.tel.Serves k ∧ o.response.code = (if k = 0 then .pollBattery else .pollCustom) ∧
      o.transmit = telemetryFrame s.tel k)

/-! ### CRC8 -/

/-- R113: the CRC command responds with the CRC8 of its data and changes nothing; every count from 0 to 255 is legal. -/
def Obligations.CrcCommandRespondsWithTheCrc : Prop :=
  ∀ (d : List Byte) (s : State),
    encode (.crc d) = .command (0x08 :: BitVec.ofNat 8 d.length :: d) ∧
    (Instr.wellFormed (.crc d) = true ↔ d.length ≤ 255) ∧
    exec (.crc d) s = .next { s with outputs := s.outputs ++ [⟨⟨.crcResult, crc8 d⟩, [], []⟩] } ∧
    RespCode.crcResult.toByte = 0x30 ∧
    (d = [] → crc8 d = 0) ∧ (∀ i, d = [i] → crc8 d = crcTab i) ∧ crc8 (d ++ [crc8 d]) = 0

/-- R110 and R111: the function is table-driven from 0, and each table entry is eight MSB-first shifts of its index by the
polynomial 0xD5. -/
def Obligations.Crc8IsTableDriven : Prop :=
  crc8 [] = 0 ∧ (∀ (d : List Byte) (x : Byte), crc8 (d ++ [x]) = crcTab (crc8 d ^^^ x)) ∧
  ∀ i : Byte, crcTab i =
    Nat.repeat (fun c : Byte => if c.getLsbD 7 then (c <<< 1) ^^^ 0xD5 else c <<< 1) 8 i

/-- The table-driven and the bitwise function agree on every input. Derived: 40_crc8.md section 1 (R112, marked derived
by the spec: "The table-driven `crc8` equals the bitwise form below for every input"). -/
def Obligations.Crc8EqualsItsBitwiseForm : Prop := ∀ d : List Byte, crc8 d = crc8Bitwise d

/-- A list that ends in its own CRC has CRC 0, the decoder's comparison is the same as that residue being 0, the CRC is
linear over lists of equal length, and leading zero bytes do not change it. Derived: 40_crc8.md section 2 (R115, R116, marked
derived by the spec: "For every byte list d, `crc8(d ++ [crc8(d)]) = 0x00`"; "`crc8` is linear over equal-length
lists"). -/
def Obligations.Crc8ResidueAndLinearity : Prop :=
  (∀ (d : List Byte) (b : Byte), crc8 (d ++ [crc8 d]) = 0 ∧ (crc8 d = b ↔ crc8 (d ++ [b]) = 0)) ∧
  (∀ d e : List Byte, d.length = e.length → crc8 (List.zipWith (· ^^^ ·) d e) = crc8 d ^^^ crc8 e) ∧
  (∀ (n : Nat) (d : List Byte), crc8 (List.replicate n 0 ++ d) = crc8 d)

/-! ### The writer -/

/-- W_RESET empties the writer and clears `wr_ovf`; the buffer's bytes stay, and nothing else changes. Derived:
41_buffer_writer.md section 1 (R130); that the step leaves the outputs as they are is the model's deduction (log 10). -/
def Obligations.WriterResetEmptiesTheWriter : Prop :=
  ∀ s : State, encode .wReset = .control (controlWord 0x0 0 0) ∧
    ∃ w, exec .wReset s = .next { s with wr := w } ∧ w.cursor.val = 0 ∧ w.ovf = false ∧ w.txbuf = s.wr.txbuf

/-- An unsigned append writes the low bytes of its operand big-endian, all or none, and ignores the bits above its width;
nothing outside the writer changes. Derived: 41_buffer_writer.md sections 1 and 2 (R131, R132, R133, R135, R137, R139); that
the step leaves the outputs as they are is the model's deduction (log 10). -/
def Obligations.UnsignedAppendsWriteBigEndian : Prop :=
  ∀ (s : State) (d : BitVec 32),
    (encode (.wU8 d) = .control (controlWord 0x1 0 d) ∧
      ∃ w, exec (.wU8 d) s = .next { s with wr := w } ∧ AppendsBytes (bigEndian 1 (d.toNat % 2 ^ 8)) s.wr w) ∧
    (encode (.wU16 d) = .control (controlWord 0x3 0 d) ∧
      ∃ w, exec (.wU16 d) s = .next { s with wr := w } ∧ AppendsBytes (bigEndian 2 (d.toNat % 2 ^ 16)) s.wr w) ∧
    (encode (.wU24 d) = .control (controlWord 0x5 0 d) ∧
      ∃ w, exec (.wU24 d) s = .next { s with wr := w } ∧ AppendsBytes (bigEndian 3 (d.toNat % 2 ^ 24)) s.wr w) ∧
    (encode (.wU32 d) = .control (controlWord 0x7 0 d) ∧
      ∃ w, exec (.wU32 d) s = .next { s with wr := w } ∧ AppendsBytes (bigEndian 4 d.toNat) s.wr w)

/-- A signed append writes the low bytes of its operand big-endian, all or none, and ignores the bits above its width, as the
unsigned append of its width does; where its operand is the 32-bit two's complement of v, those are the bytes of v modulo
2^8N, high byte first. Nothing outside the writer changes. Derived: 41_buffer_writer.md sections 1, 2 and 3 (R134, R136, R138,
R140, and R143, marked derived by the spec: "the signed and the unsigned append write identical bytes for identical
`wdata`"); that the step leaves the outputs as they are is the model's deduction (log 10). -/
def Obligations.SignedAppendsWriteTwosComplement : Prop :=
  (∀ (s : State) (d : BitVec 32),
    (exec (.wS8 d) s = exec (.wU8 d) s ∧ encode (.wS8 d) = .control (controlWord 0x2 0 d) ∧
      ∃ w, exec (.wS8 d) s = .next { s with wr := w } ∧ AppendsBytes (bigEndian 1 (d.toNat % 2 ^ 8)) s.wr w) ∧
    (exec (.wS16 d) s = exec (.wU16 d) s ∧ encode (.wS16 d) = .control (controlWord 0x4 0 d) ∧
      ∃ w, exec (.wS16 d) s = .next { s with wr := w } ∧ AppendsBytes (bigEndian 2 (d.toNat % 2 ^ 16)) s.wr w) ∧
    (exec (.wS24 d) s = exec (.wU24 d) s ∧ encode (.wS24 d) = .control (controlWord 0x6 0 d) ∧
      ∃ w, exec (.wS24 d) s = .next { s with wr := w } ∧ AppendsBytes (bigEndian 3 (d.toNat % 2 ^ 24)) s.wr w) ∧
    (exec (.wS32 d) s = exec (.wU32 d) s ∧ encode (.wS32 d) = .control (controlWord 0x8 0 d) ∧
      ∃ w, exec (.wS32 d) s = .next { s with wr := w } ∧ AppendsBytes (bigEndian 4 d.toNat) s.wr w)) ∧
  (∀ (s : State) (v : Int),
    (-2 ^ 7 ≤ v → v < 2 ^ 7 → encode (.wS8 (BitVec.ofInt 32 v)) = .control (controlWord 0x2 0 (BitVec.ofInt 32 v)) ∧
      ∃ w, exec (.wS8 (BitVec.ofInt 32 v)) s = .next { s with wr := w } ∧
        AppendsBytes (bigEndian 1 (v % 2 ^ 8).toNat) s.wr w) ∧
    (-2 ^ 15 ≤ v → v < 2 ^ 15 → encode (.wS16 (BitVec.ofInt 32 v)) = .control (controlWord 0x4 0 (BitVec.ofInt 32 v)) ∧
      ∃ w, exec (.wS16 (BitVec.ofInt 32 v)) s = .next { s with wr := w } ∧
        AppendsBytes (bigEndian 2 (v % 2 ^ 16).toNat) s.wr w) ∧
    (-2 ^ 23 ≤ v → v < 2 ^ 23 → encode (.wS24 (BitVec.ofInt 32 v)) = .control (controlWord 0x6 0 (BitVec.ofInt 32 v)) ∧
      ∃ w, exec (.wS24 (BitVec.ofInt 32 v)) s = .next { s with wr := w } ∧
        AppendsBytes (bigEndian 3 (v % 2 ^ 24).toNat) s.wr w) ∧
    (-2 ^ 31 ≤ v → v < 2 ^ 31 → encode (.wS32 (BitVec.ofInt 32 v)) = .control (controlWord 0x8 0 (BitVec.ofInt 32 v)) ∧
      ∃ w, exec (.wS32 (BitVec.ofInt 32 v)) s = .next { s with wr := w } ∧
        AppendsBytes (bigEndian 4 (v % 2 ^ 32).toNat) s.wr w))

/-- W_PATCH overwrites exactly one byte below the cursor, or else only sets `wr_ovf`; the cursor does not move and nothing
outside the writer changes. Derived: 41_buffer_writer.md section 3 (R141); that the step leaves the outputs as they are is the
model's deduction (log 10). -/
def Obligations.PatchOverwritesOneWrittenByte : Prop :=
  ∀ (s : State) (i : BitVec 6) (d : BitVec 32),
    encode (.wPatch i d) = .control (controlWord 0x9 i d) ∧
    ∃ w, exec (.wPatch i d) s = .next { s with wr := w } ∧ w.cursor = s.wr.cursor ∧
      (i.toNat < s.wr.cursor.val → w.ovf = s.wr.ovf ∧
        ∀ (j : Nat) (h : j < 64), w.txbuf[j] = if j = i.toNat then BitVec.ofNat 8 (d.toNat % 2 ^ 8) else s.wr.txbuf[j]) ∧
      (s.wr.cursor.val ≤ i.toNat → w.ovf = true ∧ w.txbuf = s.wr.txbuf)

/-! ### The frame decoder -/

/-- R150: FEED runs the arm of its decoder state. In a legal decoder state it completes with exactly one decode outcome,
value 0; it touches no telemetry, writer or threshold state, and changes `failsafe` only when it dispatches a
link-statistics frame. In a decoder state that breaks R38 it may fault (the model's choice, log 6). -/
def Obligations.FeedAnswersOneOutcome : Prop :=
  ∀ (b : Byte) (s : State), s.dec.Inv →
    encode (.feed b) = .command [0x01, b] ∧
    exec (.feed b) s = (match s.dec.state with
      | .awaitSync => feedSync b s
      | .awaitLength => feedLength b s
      | .accumulate => feedAccumulate b s
      | .awaitCrc => feedCrc b s) ∧
    ∃ t o, exec (.feed b) s = .next t ∧
      t = { s with dec := t.dec, chan := t.chan, failsafe := t.failsafe, outputs := s.outputs ++ [o] } ∧
      o.response.code.toByte.toNat ≤ 7 ∧ o.response.value = 0 ∧ o.transmit = [] ∧
      (t.failsafe ≠ s.failsafe → o.response.code = .frameLink) ∧ (t.chan ≠ s.chan → o.response.code = .frameRc)

/-- R151: in AWAIT_SYNC a sync byte is taken into the frame, any other byte is discarded without a state change. -/
def Obligations.FeedInAwaitSync : Prop :=
  ∀ (b : Byte) (s : State), s.dec.state = .awaitSync →
    (b = 0xC8 ∨ b = 0xEE →
      exec (.feed b) s = .next { s with
        dec := { s.dec with rxbuf := s.dec.rxbuf.set 0 b, idx := 1, state := .awaitLength },
        outputs := s.outputs ++ [⟨⟨.progress, 0⟩, [], []⟩] }) ∧
    (b ≠ 0xC8 → b ≠ 0xEE →
      exec (.feed b) s = .next { s with outputs := s.outputs ++ [⟨⟨.syncDiscard, 0⟩, [], []⟩] })

/-- R152: in AWAIT_LENGTH a length from 2 to 62 is taken, any other byte resets the decoder. -/
def Obligations.FeedInAwaitLength : Prop :=
  ∀ (b : Byte) (s : State), s.dec.state = .awaitLength →
    (2 ≤ b.toNat → b.toNat ≤ 62 →
      exec (.feed b) s = .next { s with
        dec := { state := .accumulate, idx := 2, len := b, rxbuf := s.dec.rxbuf.set 1 b },
        outputs := s.outputs ++ [⟨⟨.progress, 0⟩, [], []⟩] }) ∧
    (b.toNat < 2 ∨ 62 < b.toNat →
      exec (.feed b) s = .next { s with
        dec := { state := .awaitSync, idx := 0, len := 0, rxbuf := s.dec.rxbuf },
        outputs := s.outputs ++ [⟨⟨.lengthReject, 0⟩, [], []⟩] })

/-- R153: in ACCUMULATE the byte is stored at `dec_idx`, which advances; the decoder moves to AWAIT_CRC exactly when the
new index is `dec_len` + 1. -/
def Obligations.FeedInAccumulate : Prop :=
  ∀ (b : Byte) (s : State), s.dec.Inv → s.dec.state = .accumulate →
    ∃ d, exec (.feed b) s = .next { s with dec := d, outputs := s.outputs ++ [⟨⟨.progress, 0⟩, [], []⟩] } ∧
      d.idx.val = s.dec.idx.val + 1 ∧ d.len = s.dec.len ∧
      d.state = (if s.dec.idx.val + 1 = s.dec.len.toNat + 1 then .awaitCrc else .accumulate) ∧
      ∀ (j : Nat) (h : j < 64), d.rxbuf[j] = if j = s.dec.idx.val then b else s.dec.rxbuf[j]

/-- R154, R155 and R156: the byte in AWAIT_CRC is compared with the CRC8 of type and payload. On a mismatch the frame is
discarded. On a match an unknown type is ignored, a known type of the wrong payload size is a size mismatch, and an RC or
link-statistics frame of the right size is dispatched. The byte is stored and the decoder reset in every case; where nothing
is dispatched there is no event and nothing else changes. -/
def Obligations.FeedInAwaitCrc : Prop :=
  ∀ (b : Byte) (s : State), s.dec.Inv → s.dec.state = .awaitCrc →
    (b ≠ crc8 (slice s.dec.rxbuf 2 s.dec.len.toNat) →
      exec (.feed b) s = .next { s.afterCrc b with outputs := s.outputs ++ [⟨⟨.crcMismatch, 0⟩, [], []⟩] }) ∧
    (b = crc8 (slice s.dec.rxbuf 2 s.dec.len.toNat) →
      (s.dec.rxbuf[2] ≠ 0x16 → s.dec.rxbuf[2] ≠ 0x14 →
        exec (.feed b) s = .next { s.afterCrc b with outputs := s.outputs ++ [⟨⟨.frameIgnored, 0⟩, [], []⟩] }) ∧
      (s.dec.rxbuf[2] = 0x16 ∧ s.dec.len.toNat - 2 ≠ 22 ∨ s.dec.rxbuf[2] = 0x14 ∧ s.dec.len.toNat - 2 ≠ 10 →
        exec (.feed b) s = .next { s.afterCrc b with outputs := s.outputs ++ [⟨⟨.frameSizeMismatch, 0⟩, [], []⟩] }) ∧
      (s.dec.rxbuf[2] = 0x16 → s.dec.len.toNat - 2 = 22 →
        let v := unpackRc (slice s.dec.rxbuf 3 24)
        exec (.feed b) s =
          .next { s.afterCrc b with chan := v, outputs := s.outputs ++ [⟨⟨.frameRc, 0⟩, [.rc v], []⟩] }) ∧
      (s.dec.rxbuf[2] = 0x14 → s.dec.len.toNat - 2 = 10 →
        let ls := unpackLs Config.antSelectPolarity Config.txpwrMw (slice s.dec.rxbuf 3 12)
        let f := fsEval ls s.lqThr s.rssiThr
        exec (.feed b) s = .next { s.afterCrc b with
          failsafe := f,
          outputs := s.outputs ++
            [⟨⟨.frameLink, 0⟩, .link ls :: (if f = s.failsafe then [] else [.failsafe f]), []⟩] }))

/-- R180 and R181: a valid RC frame of length 24 stores all sixteen channels and emits them; channel i is bits 11i+10 : 11i
of the little-endian payload value. Nothing else changes. -/
def Obligations.RcFrameStoresTheChannels : Prop :=
  ∀ (b : Byte) (s : State), s.dec.Inv → s.dec.state = .awaitCrc → s.dec.len = 24 → s.dec.rxbuf[2] = 0x16 →
    b = crc8 (slice s.dec.rxbuf 2 24) →
    ∃ v : Vector Channel 16,
      exec (.feed b) s =
        .next { s.afterCrc b with chan := v, outputs := s.outputs ++ [⟨⟨.frameRc, 0⟩, [.rc v], []⟩] } ∧
      ∀ (i : Nat) (h : i < 16), v[i].toNat =
        ((∑ j ∈ Finset.range 22, (s.payloadByte j).toNat * 2 ^ (8 * j)) >>> (11 * i)) &&& 0x7FF

/-- R184, R185, R186, R210: a valid link-statistics frame of length 12 emits its record with the selected RSSI and the power
of the table, sets `failsafe` to the unsigned comparison of payload byte 2 and the selected RSSI with the thresholds, and
emits the failsafe event, after the link event, exactly on a change. Nothing else changes. -/
def Obligations.LinkFrameReportsAndDecidesFailsafe : Prop :=
  Config.txpwrMw.toList = [0, 10, 25, 100, 500, 1000, 2000, 250, 50] ∧
  ∀ (b : Byte) (s : State), s.dec.Inv → s.dec.state = .awaitCrc → s.dec.len = 12 → s.dec.rxbuf[2] = 0x14 →
    b = crc8 (slice s.dec.rxbuf 2 12) →
    ∃ f : Bool,
      let ls := unpackLs Config.antSelectPolarity Config.txpwrMw (slice s.dec.rxbuf 3 12)
      exec (.feed b) s = .next { s.afterCrc b with
        failsafe := f,
        outputs := s.outputs ++
          [⟨⟨.frameLink, 0⟩, .link ls :: (if f = s.failsafe then [] else [.failsafe f]), []⟩] } ∧
      ls.rssi = (if ls.antenna = 0 then ls.rssi1 else ls.rssi2) ∧
      ls.txpwrMw = Config.txpwrMw.toList.getD ls.txpwrIdx.toNat 0 ∧ ls.lq = s.payloadByte 2 ∧
      (f = true ↔ ls.lq.toNat ≤ s.lqThr.toNat ∨ s.rssiThr.toNat ≤ ls.rssi.toNat)

/-- The record a link-statistics frame emits holds the ten payload bytes in the order of the document, one byte a field.
Derived: 43_payload_codecs.md section 2 (R183, marked derived by the spec: "That each field is one byte follows from there
being ten fields in ten bytes."). -/
def Obligations.LinkRecordTakesTheTenBytes : Prop :=
  ∀ (b : Byte) (s t : State) (o : StepOutput) (ls : LinkStats), s.dec.Inv → s.dec.state = .awaitCrc →
    exec (.feed b) s = .next t → t.outputs = s.outputs ++ [o] → .link ls ∈ o.events →
    ls.rssi1 = s.payloadByte 0 ∧ ls.rssi2 = s.payloadByte 1 ∧ ls.lq = s.payloadByte 2 ∧ ls.snr = s.payloadByte 3 ∧
    ls.antenna = s.payloadByte 4 ∧ ls.rfMode = s.payloadByte 5 ∧ ls.txpwrIdx = s.payloadByte 6 ∧
    ls.dlRssi = s.payloadByte 7 ∧ ls.dlLq = s.payloadByte 8 ∧ ls.dlSnr = s.payloadByte 9 ∧
    ls.rssi = (if s.payloadByte 4 = 0 then s.payloadByte 0 else s.payloadByte 1) ∧
    ls.txpwrMw = Config.txpwrMw.toList.getD (s.payloadByte 6).toNat 0

/-- R187: the SNR fields are the payload bytes read as s8, a byte v of 128 or more standing for v - 256; all ten raw fields
pass through unchanged. -/
def Obligations.SnrFieldsAreTwosComplement : Prop :=
  ∀ (polarity : Bool) (table : Vector (BitVec 16) 9) (p : List Byte),
    (unpackLs polarity table p).snrValue =
      (if (p.getD 3 0).toNat < 128 then ((p.getD 3 0).toNat : Int) else (p.getD 3 0).toNat - 256) ∧
    (unpackLs polarity table p).dlSnrValue =
      (if (p.getD 9 0).toNat < 128 then ((p.getD 9 0).toNat : Int) else (p.getD 9 0).toNat - 256) ∧
    (p.length = 10 → packLs (unpackLs polarity table p) = p)

/-- R157: DRESET puts the decoder in AWAIT_SYNC, responds ACK and changes nothing else. -/
def Obligations.DresetResetsOnlyTheDecoder : Prop :=
  ∀ s : State, encode .dreset = .command [0x02] ∧
    exec .dreset s = .next { s with
      dec := { state := .awaitSync, idx := 0, len := 0, rxbuf := s.dec.rxbuf },
      outputs := s.outputs ++ [⟨⟨.ack, 0⟩, [], []⟩] }

/-- After any outcome but PROGRESS the decoder waits for a sync byte with index 0. Derived: 42_frame_decoder.md section 3
(R159, marked derived by the spec: "After any outcome other than PROGRESS, the decoder is in AWAIT_SYNC with `dec_idx` =
0."). -/
def Obligations.OnlyProgressLeavesAwaitSync : Prop :=
  ∀ (b : Byte) (s t : State) (o : StepOutput), s.dec.Inv → exec (.feed b) s = .next t → t.outputs = s.outputs ++ [o] →
    o.response.code ≠ .progress → t.AtSync

/-! ### Whole frames -/

/-- The bytes fed since AWAIT_SYNC stand in `rxbuf` in order, each answered PROGRESS, and the decoder expects the CRC
exactly when the declared length is reached; nothing but the decoder and the outputs changes. Derived: 42_frame_decoder.md
section 3 (R162) and 10_state.md section 7 (R38, "were written since the last AWAIT_SYNC"), both marked derived by the
spec. -/
def Obligations.FedBytesAreCollected : Prop :=
  ∀ (s : State) (sync : Byte) (len : Nat) (body : List Byte), s.AtSync → sync = 0xC8 ∨ sync = 0xEE →
    2 ≤ len → len ≤ 62 → body.length + 1 ≤ len →
    ∃ t, execAll (feeds (sync :: BitVec.ofNat 8 len :: body)) s = .next t ∧
      t = { s with dec := t.dec, outputs := s.outputs ++ List.replicate (body.length + 2) ⟨⟨.progress, 0⟩, [], []⟩ } ∧
      t.dec.state = (if body.length + 1 = len then .awaitCrc else .accumulate) ∧
      t.dec.idx.val = body.length + 2 ∧ t.dec.len.toNat = len ∧
      t.dec.rxbuf.toList.take (body.length + 2) = sync :: BitVec.ofNat 8 len :: body

/-- A valid frame fed in AWAIT_SYNC is decoded to that frame, whatever its type and size: all but its last byte are
answered PROGRESS, the last one by the outcome of its type and payload size, and the whole frame stands in `rxbuf`.
Derived: 42_frame_decoder.md section 3 (R159, R162, marked derived by the spec). -/
def Obligations.ValidFrameIsDispatched : Prop :=
  ∀ (s : State) (sync type : Byte) (payload : List Byte), s.AtSync → sync = 0xC8 ∨ sync = 0xEE → payload.length ≤ 60 →
    ∃ t o, execAll (feeds (frameBytes sync type payload)) s = .next t ∧ t.AtSync ∧
      t.outputs = s.outputs ++ List.replicate (payload.length + 3) ⟨⟨.progress, 0⟩, [], []⟩ ++ [o] ∧
      t.dec.rxbuf.toList.take (payload.length + 4) = frameBytes sync type payload ∧
      o.response = ⟨if type = 0x16 then (if payload.length = 22 then .frameRc else .frameSizeMismatch)
        else if type = 0x14 then (if payload.length = 10 then .frameLink else .frameSizeMismatch)
        else .frameIgnored, 0⟩ ∧
      t.tel = s.tel ∧ t.wr = s.wr ∧ t.lqThr = s.lqThr ∧ t.rssiThr = s.rssiThr

/-- An RC frame built from sixteen channel values and fed in AWAIT_SYNC delivers exactly those values, with either sync
byte. Derived: 43_payload_codecs.md section 4 (R193, R195) and 42_frame_decoder.md section 3 (R159), marked derived by
the spec. -/
def Obligations.RcFrameDeliversItsChannels : Prop :=
  ∀ (s : State) (sync : Byte) (c : Vector Channel 16), s.AtSync → sync = 0xC8 ∨ sync = 0xEE →
    ∃ t, execAll (feeds (frameBytes sync 0x16 (packRc c))) s = .next t ∧ t.AtSync ∧ t.chan = c ∧
      t.failsafe = s.failsafe ∧
      t.outputs = s.outputs ++ List.replicate 25 ⟨⟨.progress, 0⟩, [], []⟩ ++ [⟨⟨.frameRc, 0⟩, [.rc c], []⟩]

/-- A frame whose last byte is not its CRC delivers nothing and leaves the decoder ready for the next frame. Derived:
42_frame_decoder.md sections 1 and 3 (R154, R159). -/
def Obligations.CorruptFrameDeliversNothing : Prop :=
  ∀ (s : State) (sync type b : Byte) (payload : List Byte), s.AtSync → sync = 0xC8 ∨ sync = 0xEE →
    payload.length ≤ 60 → b ≠ crc8 (type :: payload) →
    ∃ t, execAll (feeds ((frameBytes sync type payload).dropLast ++ [b])) s = .next t ∧ t.AtSync ∧
      t = { s with dec := t.dec, outputs := s.outputs ++
        List.replicate (payload.length + 3) ⟨⟨.progress, 0⟩, [], []⟩ ++ [⟨⟨.crcMismatch, 0⟩, [], []⟩] }

/-- Every frame a POLL transmits is accepted by a decoder in AWAIT_SYNC as a valid frame of an ignored type, and its
payload bytes then stand in that decoder's `rxbuf`. Derived: 43_payload_codecs.md section 4 (R195 law 4, marked derived
by the spec: "ends in FRAME_IGNORED"). -/
def Obligations.TelemetryFramesRoundTrip : Prop :=
  ∀ (s t d : State) (o : StepOutput), exec .poll s = .next t → t.outputs = s.outputs ++ [o] → o.transmit ≠ [] → d.AtSync →
    ∃ d' k, s.tel.Serves k ∧ execAll (feeds o.transmit) d = .next d' ∧ d'.AtSync ∧
      d'.outputs = d.outputs ++ List.replicate (o.transmit.length - 1) ⟨⟨.progress, 0⟩, [], []⟩ ++
        [⟨⟨.frameIgnored, 0⟩, [], []⟩] ∧
      slice d'.dec.rxbuf 3 (o.transmit.length - 2) =
        if k = 0 then packBat s.tel.batVoltage s.tel.batCurrent s.tel.batCapacity s.tel.batPercent
        else s.tel.cusData.toList.take s.tel.cusLen.val

/-- The RC codecs are inverse to each other, and the link-statistics codec keeps its ten raw fields. Derived:
43_payload_codecs.md section 4 (R195 laws 1 to 3, marked derived by the spec). -/
def Obligations.CodecsRoundTrip : Prop :=
  (∀ c : Vector Channel 16, unpackRc (packRc c) = c) ∧
  (∀ p : List Byte, p.length = 22 → packRc (unpackRc p) = p) ∧
  (∀ (polarity : Bool) (table : Vector (BitVec 16) 9) (ls : LinkStats),
    packLs (unpackLs polarity table (packLs ls)) = packLs ls)

/-- The sixteen per-channel byte formulas. Derived: 43_payload_codecs.md section 1 (R182, marked derived by the spec:
"Rule R180 is equivalent to the per-channel byte formulas below."). -/
def Obligations.ChannelsFollowTheByteFormulas : Prop :=
  ∀ bytes : List Byte, bytes.length = 22 →
    let p : Nat → Nat := fun j => (bytes.getD j 0).toNat
    (unpackRc bytes).toList.map BitVec.toNat =
      [(p 0 + (p 1 <<< 8)) &&& 0x7FF,
       ((p 1 >>> 3) + (p 2 <<< 5)) &&& 0x7FF,
       ((p 2 >>> 6) + (p 3 <<< 2) + (p 4 <<< 10)) &&& 0x7FF,
       ((p 4 >>> 1) + (p 5 <<< 7)) &&& 0x7FF,
       ((p 5 >>> 4) + (p 6 <<< 4)) &&& 0x7FF,
       ((p 6 >>> 7) + (p 7 <<< 1) + (p 8 <<< 9)) &&& 0x7FF,
       ((p 8 >>> 2) + (p 9 <<< 6)) &&& 0x7FF,
       ((p 9 >>> 5) + (p 10 <<< 3)) &&& 0x7FF,
       (p 11 + (p 12 <<< 8)) &&& 0x7FF,
       ((p 12 >>> 3) + (p 13 <<< 5)) &&& 0x7FF,
       ((p 13 >>> 6) + (p 14 <<< 2) + (p 15 <<< 10)) &&& 0x7FF,
       ((p 15 >>> 1) + (p 16 <<< 7)) &&& 0x7FF,
       ((p 16 >>> 4) + (p 17 <<< 4)) &&& 0x7FF,
       ((p 17 >>> 7) + (p 18 <<< 1) + (p 19 <<< 9)) &&& 0x7FF,
       ((p 19 >>> 2) + (p 20 <<< 6)) &&& 0x7FF,
       ((p 20 >>> 5) + (p 21 <<< 3)) &&& 0x7FF]

/-! ### Thresholds and failsafe -/

/-- R212 and R213: each setter writes its threshold, responds ACK, and changes nothing else, `failsafe` included; the
thresholds' extreme values. -/
def Obligations.ThresholdSettersWriteOnlyTheirThreshold : Prop :=
  ∀ (x : Byte) (s : State) (ls : LinkStats) (y : Byte),
    encode (.setlqt x) = .command [0x03, x] ∧ encode (.setrst x) = .command [0x04, x] ∧
    exec (.setlqt x) s = .next { s with lqThr := x, outputs := s.outputs ++ [⟨⟨.ack, 0⟩, [], []⟩] } ∧
    exec (.setrst x) s = .next { s with rssiThr := x, outputs := s.outputs ++ [⟨⟨.ack, 0⟩, [], []⟩] } ∧
    fsEval ls 255 y = true ∧ fsEval ls y 0 = true ∧
    (fsEval ls 0 y = true ↔ ls.lq = 0 ∨ y.toNat ≤ ls.rssi.toNat) ∧
    (fsEval ls y 255 = true ↔ ls.lq.toNat ≤ y.toNat ∨ ls.rssi = 255)

/-- R211: `failsafe` is recomputed on every dispatched link-statistics frame, with a failsafe event exactly on a change,
in either direction, after the link event; nothing else changes it. -/
def Obligations.FailsafeIsEdgeTriggered : Prop :=
  ∀ (i : Instr) (s t : State), exec i s = .next t →
    (t.failsafe = s.failsafe ∨ ∃ b o, i = .feed b ∧ t.outputs = s.outputs ++ [o] ∧ o.response.code = .frameLink) ∧
    ∀ (o : StepOutput) (ls : LinkStats), t.outputs = s.outputs ++ [o] → .link ls ∈ o.events →
      (t.failsafe = true ↔ ls.lq.toNat ≤ s.lqThr.toNat ∨ s.rssiThr.toNat ≤ ls.rssi.toNat) ∧
      o.events = .link ls :: (if t.failsafe = s.failsafe then [] else [.failsafe t.failsafe])

/-- The comparator ignores everything but the link quality, the selected RSSI and the thresholds: two dispatched
link-statistics frames that agree on those leave the same `failsafe`, whatever else differs; and every FEED that does not
dispatch such a frame leaves it alone. Derived: 44_failsafe.md section 2 (R215, marked derived by the spec: "The
comparator ignores everything else."). -/
def Obligations.FailsafeIgnoresTheRest : Prop :=
  (∀ (b b' : Byte) (s s' t t' : State) (o o' : StepOutput) (ls ls' : LinkStats) (es es' : List Event),
    exec (.feed b) s = .next t → exec (.feed b') s' = .next t' →
    t.outputs = s.outputs ++ [o] → t'.outputs = s'.outputs ++ [o'] →
    o.events = .link ls :: es → o'.events = .link ls' :: es' →
    ls.lq = ls'.lq → ls.rssi = ls'.rssi → s.lqThr = s'.lqThr → s.rssiThr = s'.rssiThr →
    t.failsafe = t'.failsafe) ∧
  (∀ (b : Byte) (s t : State) (o : StepOutput), exec (.feed b) s = .next t → t.outputs = s.outputs ++ [o] →
    o.response.code ≠ .frameLink → t.failsafe = s.failsafe)

/-- Thresholds set between the FEEDs of a link-statistics frame apply to that frame: whichever setters stand between whichever
bytes, any number of either, the thresholds last set before the CRC byte decide. Derived: 70_reset_and_hazards.md section 3
(R276, marked derived by the spec: "A threshold set between the FEEDs of a LINK_STATISTICS frame applies to that frame"). -/
def Obligations.ThresholdSetMidFrameApplies : Prop :=
  ∀ (s : State) (sync : Byte) (ls : LinkStats) (ops : List Instr), s.AtSync → sync = 0xC8 ∨ sync = 0xEE →
    (∀ i ∈ ops, (∃ b, i = .feed b) ∨ (∃ x, i = .setlqt x) ∨ ∃ y, i = .setrst y) →
    fedBytes ops = (frameBytes sync 0x14 (packLs ls)).dropLast →
    ∃ t, execAll (ops ++ [.feed (crc8 (0x14 :: packLs ls))]) s = .next t ∧ t.AtSync ∧
      t.lqThr = lqThrAfter ops s.lqThr ∧ t.rssiThr = rssiThrAfter ops s.rssiThr ∧
      (t.failsafe = true ↔ ls.lq.toNat ≤ (lqThrAfter ops s.lqThr).toNat ∨
        (rssiThrAfter ops s.rssiThr).toNat ≤ (if ls.antenna = 0 then ls.rssi1 else ls.rssi2).toNat) ∧ t.chan = s.chan

/-! ### Telemetry -/

/-- R226: SETBAT replaces the four battery fields together and marks kind 0 pending; nothing else changes. -/
def Obligations.SetbatStoresTheBatteryValue : Prop :=
  ∀ (v c : BitVec 16) (k : BitVec 24) (p : Byte) (s : State),
    encode (.setbat v c k p) =
      .command (0x05 :: bigEndian 2 v.toNat ++ bigEndian 2 c.toNat ++ bigEndian 3 k.toNat ++ [p]) ∧
    exec (.setbat v c k p) s = .next { s with
      tel := { s.tel with
        batVoltage := v, batCurrent := c, batCapacity := k, batPercent := p, pending := s.tel.pending.set 0 true },
      outputs := s.outputs ++ [⟨⟨.ack, 0⟩, [], []⟩] }

/-- R227: SETCUS of at most 60 bytes stores length and bytes, keeps the old bytes past them and marks kind 1 pending; a
longer one is rejected and changes nothing. -/
def Obligations.SetcusStoresOrRejects : Prop :=
  ∀ (d : List Byte) (s : State),
    encode (.setcus d) = .command (0x06 :: BitVec.ofNat 8 d.length :: d) ∧
    (d.length ≤ 60 → ∃ tel, exec (.setcus d) s =
        .next { s with tel := tel, outputs := s.outputs ++ [⟨⟨.ack, 0⟩, [], []⟩] } ∧
      tel.cusLen.val = d.length ∧
      (∀ (j : Nat) (h : j < 60), tel.cusData[j] = if j < d.length then d.getD j 0 else s.tel.cusData[j]) ∧
      tel = { s.tel with cusLen := tel.cusLen, cusData := tel.cusData, pending := s.tel.pending.set 1 true }) ∧
    (60 < d.length →
      exec (.setcus d) s = .next { s with outputs := s.outputs ++ [⟨⟨.reject, 0⟩, [], []⟩] })

/-- R228, R229: POLL serves the first pending kind from the cursor on: it leaves in the writer what the frame's micro-ops
leave there, one executed after another, transmits the writer's content, moves the cursor past that kind and leaves every
pending flag; with nothing pending it only responds. -/
def Obligations.PollServesTheNextPendingKind : Prop :=
  ∀ s : State, encode .poll = .command [0x07] ∧
    ((∀ k : Kind, s.tel.pending[k] = false) →
      exec .poll s = .next { s with outputs := s.outputs ++ [⟨⟨.pollNone, 0⟩, [], []⟩] }) ∧
    (∀ k : Kind, s.tel.Serves k → ∃ u v w : State,
      execAll (frameOps s.tel k) s = .next u ∧
      exec (.wPatch 1 (BitVec.ofNat 32 (u.wr.cursor.val - 1))) u = .next v ∧
      exec (.wU8 ((crc8 (slice v.wr.txbuf 2 (v.wr.cursor.val - 1))).setWidth 32)) v = .next w ∧
      exec .poll s = .next { s with
        wr := w.wr, tel := { s.tel with muxCursor := k + 1 },
        outputs := s.outputs ++ [⟨⟨if k = 0 then .pollBattery else .pollCustom, 0⟩, [],
          w.wr.txbuf.toList.take w.wr.cursor.val⟩] } ∧
      u.wr.cursor.val = 3 + (if k = 0 then 8 else s.tel.cusLen.val) ∧ w.wr.ovf = false) ∧
    ((∃ k : Kind, s.tel.pending[k] = true) → ∃ k : Kind, s.tel.Serves k)

/-- The frame a POLL transmits, byte for byte, and its length; the writer never overflows. Derived: 45_telemetry_mux.md
sections 3 and 4 (R230, R233, marked derived by the spec: "The frame a POLL transmits for kind k is exactly"). -/
def Obligations.PollTransmitsTheWholeFrame : Prop :=
  ∀ (s : State) (k : Kind), s.tel.Serves k → ∃ t o, exec .poll s = .next t ∧ t.outputs = s.outputs ++ [o] ∧
    o.transmit = telemetryFrame s.tel k ∧ t.wr.txbuf.toList.take t.wr.cursor.val = telemetryFrame s.tel k ∧
    o.transmit.length = (if k = 0 then 12 else s.tel.cusLen.val + 4) ∧ o.transmit.length ≤ 64 ∧ t.wr.ovf = false

/-- Round robin: with both kinds pending any number of POLLs alternates them from the cursor on, and with one kind pending
every POLL serves it. Derived: 45_telemetry_mux.md section 4 (R231, marked derived by the spec: "no kind is starved"). -/
def Obligations.PendingKindsAlternate : Prop :=
  ∀ (n : Nat) (s : State),
    ((∀ k : Kind, s.tel.pending[k] = true) → ∃ t, execAll (List.replicate n .poll) s = .next t ∧
      (outputsSince s t).map (·.response.code) =
        (List.range n).map fun i => if (s.tel.muxCursor.val + i) % 2 = 0 then .pollBattery else .pollCustom) ∧
    (∀ k : Kind, s.tel.pending[k] = true → s.tel.pending[k + 1] = false →
      ∃ t, execAll (List.replicate n .poll) s = .next t ∧
        (outputsSince s t).map (·.response.code) = List.replicate n (if k = 0 then .pollBattery else .pollCustom))

/-- R30: a pending flag is false after reset, is set by its kind's accepted setter, and is never cleared. -/
def Obligations.PendingFlagsAreSticky : Prop :=
  (∀ k : Kind, State.reset.tel.pending[k] = false) ∧
  ∀ (i : Instr) (s t : State), exec i s = .next t →
    (t.tel.pending[(0 : Kind)] = true ↔ s.tel.pending[(0 : Kind)] = true ∨ ∃ v c k p, i = .setbat v c k p) ∧
    (t.tel.pending[(1 : Kind)] = true ↔ s.tel.pending[(1 : Kind)] = true ∨ ∃ d, i = .setcus d ∧ d.length ≤ 60)

/-! ### Rules of the whole machine -/

/-- R62: the decoder's commands read and write only the decoder, channel, failsafe and threshold state, and the
multiplexer's commands only the telemetry and writer state: states that agree on the one part are taken to states that
agree on it, with the same output, and the other part stays. -/
def Obligations.DecoderAndMultiplexerAreSeparate : Prop :=
  (∀ (i : Instr) (s s' t : State), i = .dreset ∨ (∃ b, i = .feed b) →
    s.dec = s'.dec → s.chan = s'.chan → s.failsafe = s'.failsafe → s.lqThr = s'.lqThr → s.rssiThr = s'.rssiThr →
    exec i s = .next t → ∃ t' o, exec i s' = .next t' ∧ t'.dec = t.dec ∧ t'.chan = t.chan ∧ t'.failsafe = t.failsafe ∧
      t.outputs = s.outputs ++ [o] ∧ t'.outputs = s'.outputs ++ [o] ∧
      t.lqThr = s.lqThr ∧ t.rssiThr = s.rssiThr ∧ t.tel = s.tel ∧ t.wr = s.wr) ∧
  (∀ (i : Instr) (s s' t : State),
    i = .poll ∨ (∃ d, i = .setcus d) ∨ (∃ v c k p, i = .setbat v c k p) →
    s.tel = s'.tel → s.wr = s'.wr →
    exec i s = .next t → ∃ t' o, exec i s' = .next t' ∧ t'.tel = t.tel ∧ t'.wr = t.wr ∧
      t.outputs = s.outputs ++ [o] ∧ t'.outputs = s'.outputs ++ [o] ∧
      t.dec = s.dec ∧ t.chan = s.chan ∧ t.failsafe = s.failsafe ∧ t.lqThr = s.lqThr ∧ t.rssiThr = s.rssiThr)

/-- Every state element is written only by its own commands. Derived: 10_state.md section 8, the column "written by". -/
def Obligations.ElementsHaveTheirOwnWriters : Prop :=
  ∀ (i : Instr) (s t : State), exec i s = .next t →
    (t.dec ≠ s.dec → i = .dreset ∨ ∃ b, i = .feed b) ∧
    (t.dec.rxbuf ≠ s.dec.rxbuf → ∃ b, i = .feed b) ∧
    (t.chan ≠ s.chan → ∃ b, i = .feed b) ∧
    (t.failsafe ≠ s.failsafe → ∃ b, i = .feed b) ∧
    (t.lqThr ≠ s.lqThr → i = .setlqt t.lqThr) ∧
    (t.rssiThr ≠ s.rssiThr → i = .setrst t.rssiThr) ∧
    (t.tel.pending ≠ s.tel.pending → (∃ v c k p, i = .setbat v c k p) ∨ ∃ d, i = .setcus d ∧ d.length ≤ 60) ∧
    ((t.tel.batVoltage ≠ s.tel.batVoltage ∨ t.tel.batCurrent ≠ s.tel.batCurrent ∨
      t.tel.batCapacity ≠ s.tel.batCapacity ∨ t.tel.batPercent ≠ s.tel.batPercent) →
      i = .setbat t.tel.batVoltage t.tel.batCurrent t.tel.batCapacity t.tel.batPercent) ∧
    ((t.tel.cusLen ≠ s.tel.cusLen ∨ t.tel.cusData ≠ s.tel.cusData) → ∃ d, i = .setcus d ∧ d.length = t.tel.cusLen.val) ∧
    (t.tel.muxCursor ≠ s.tel.muxCursor → i = .poll) ∧
    (t.wr ≠ s.wr → i = .poll ∨ i.isCommand = false)

/-- A step of one engine of a bank moves that engine as its own step does, and no other. Derived: 60_exceptions.md section
6 (R262: "Instances share no state"); the bank is the model's form (log 13). -/
def Obligations.EnginesAreIndependent : Prop :=
  ∀ (k : Nat) (bank bank' : List State), stepAt k bank = .next bank' →
    bank'.length = bank.length ∧ (∀ j, j ≠ k → bank'[j]? = bank[j]?) ∧
    (∀ s, bank[k]? = some s → ∃ t, step s = .next t ∧ bank'[k]? = some t)

/-! ### The assembler -/

/-- The bytes of each command line, and the lines that are assembly errors. Derived: 30_encoding.md section 5 (R97, "An
operand value that does not fit its field is an assembly error"); the text of a line is log 14. -/
def Obligations.AssembledCommandLines : Prop :=
  (∀ n : Nat, n < 256 → assembleLine (.feed n) = some [0x01, BitVec.ofNat 8 n] ∧
    assembleLine (.setlqt n) = some [0x03, BitVec.ofNat 8 n] ∧
    assembleLine (.setrst n) = some [0x04, BitVec.ofNat 8 n]) ∧
  (∀ n : Nat, 256 ≤ n → assembleLine (.feed n) = none ∧ assembleLine (.setlqt n) = none ∧
    assembleLine (.setrst n) = none ∧ assembleLine (.byte n) = none) ∧
  (assembleLine .dreset = some [0x02] ∧ assembleLine .poll = some [0x07]) ∧
  (∀ v c k p : Nat, assembleLine (.setbat v c k p) =
    if v < 2 ^ 16 ∧ c < 2 ^ 16 ∧ k < 2 ^ 24 ∧ p < 2 ^ 8 then
      some (0x05 :: bigEndian 2 v ++ bigEndian 2 c ++ bigEndian 3 k ++ bigEndian 1 p)
    else none) ∧
  (∀ ds : List Nat,
    ((∀ n ∈ ds, n < 256) → ds.length ≤ 255 →
      assembleLine (.setcus ds) = some (0x06 :: BitVec.ofNat 8 ds.length :: ds.map (BitVec.ofNat 8)) ∧
      assembleLine (.crc ds) = some (0x08 :: BitVec.ofNat 8 ds.length :: ds.map (BitVec.ofNat 8))) ∧
    ((∃ n ∈ ds, 256 ≤ n) ∨ 255 < ds.length → assembleLine (.setcus ds) = none ∧ assembleLine (.crc ds) = none))

/-- The expansions of the pseudo-instructions and of `.BYTE`, and the lines that are assembly errors. Derived: 30_encoding.md
section 5 (R98, and R97: "An operand value that does not fit its field is an assembly error"); that an RCFRAME without
sixteen channels and an LSFRAME without ten bytes are errors is the model's choice (log 14). -/
def Obligations.PseudoInstructionsExpand : Prop :=
  (∀ bs : List Byte, assembleLine (.feeds (bs.map BitVec.toNat)) = some (bs.flatMap fun b => [0x01, b])) ∧
  (∀ (s t : Byte) (p : List Byte), p.length ≤ 60 →
    assembleLine (.frame s.toNat t.toNat (p.map BitVec.toNat)) =
      assembleLine (.feeds (([s, BitVec.ofNat 8 (p.length + 2), t] ++ p ++ [crc8 (t :: p)]).map BitVec.toNat))) ∧
  (∀ (s t : Byte) (p : List Byte), 60 < p.length →
    assembleLine (.frame s.toNat t.toNat (p.map BitVec.toNat)) = none) ∧
  (∀ c : Vector Channel 16, assembleLine (.rcframe (c.toList.map BitVec.toNat)) =
    assembleLine (.frame 0xC8 0x16 ((packRc c).map BitVec.toNat))) ∧
  (∀ cs : List Nat, (∃ c ∈ cs, 2047 < c) ∨ cs.length ≠ 16 → assembleLine (.rcframe cs) = none) ∧
  (∀ p : List Byte, p.length = 10 →
    assembleLine (.lsframe (p.map BitVec.toNat)) = assembleLine (.frame 0xC8 0x14 (p.map BitVec.toNat))) ∧
  (∀ ps : List Nat, ps.length ≠ 10 → assembleLine (.lsframe ps) = none) ∧
  (∀ b : Byte, assembleLine (.byte b.toNat) = some [b])
end

