-- ==== Sys2Proof/Laws/State.lean ====
section
/-! SUPPORT. One lemma per field for each named update of the state and of its components, all true by definition. -/

namespace Sys2Proof.Machine

/-! ### State.respond -/

@[simp] theorem State.respond_dec (s : State) (o : StepOutput) : (s.respond o).dec = s.dec := rfl
@[simp] theorem State.respond_chan (s : State) (o : StepOutput) : (s.respond o).chan = s.chan := rfl
@[simp] theorem State.respond_failsafe (s : State) (o : StepOutput) : (s.respond o).failsafe = s.failsafe := rfl
@[simp] theorem State.respond_lqThr (s : State) (o : StepOutput) : (s.respond o).lqThr = s.lqThr := rfl
@[simp] theorem State.respond_rssiThr (s : State) (o : StepOutput) : (s.respond o).rssiThr = s.rssiThr := rfl
@[simp] theorem State.respond_tel (s : State) (o : StepOutput) : (s.respond o).tel = s.tel := rfl
@[simp] theorem State.respond_wr (s : State) (o : StepOutput) : (s.respond o).wr = s.wr := rfl
@[simp] theorem State.respond_port (s : State) (o : StepOutput) : (s.respond o).port = s.port := rfl
@[simp] theorem State.respond_ctl (s : State) (o : StepOutput) : (s.respond o).ctl = s.ctl := rfl
@[simp] theorem State.respond_outputs (s : State) (o : StepOutput) : (s.respond o).outputs = s.outputs ++ [o] := rfl

/-! ### State.present -/

@[simp] theorem State.present_dec (s : State) (bs : List Byte) : (s.present bs).dec = s.dec := rfl
@[simp] theorem State.present_chan (s : State) (bs : List Byte) : (s.present bs).chan = s.chan := rfl
@[simp] theorem State.present_failsafe (s : State) (bs : List Byte) : (s.present bs).failsafe = s.failsafe := rfl
@[simp] theorem State.present_lqThr (s : State) (bs : List Byte) : (s.present bs).lqThr = s.lqThr := rfl
@[simp] theorem State.present_rssiThr (s : State) (bs : List Byte) : (s.present bs).rssiThr = s.rssiThr := rfl
@[simp] theorem State.present_tel (s : State) (bs : List Byte) : (s.present bs).tel = s.tel := rfl
@[simp] theorem State.present_wr (s : State) (bs : List Byte) : (s.present bs).wr = s.wr := rfl
@[simp] theorem State.present_port (s : State) (bs : List Byte) : (s.present bs).port = s.port ++ bs := rfl
@[simp] theorem State.present_ctl (s : State) (bs : List Byte) : (s.present bs).ctl = s.ctl := rfl
@[simp] theorem State.present_outputs (s : State) (bs : List Byte) : (s.present bs).outputs = s.outputs := rfl

/-! ### State.withWriter -/

@[simp] theorem State.withWriter_dec (s : State) (f : Writer → Writer) : (s.withWriter f).dec = s.dec := rfl
@[simp] theorem State.withWriter_chan (s : State) (f : Writer → Writer) : (s.withWriter f).chan = s.chan := rfl
@[simp] theorem State.withWriter_failsafe (s : State) (f : Writer → Writer) : (s.withWriter f).failsafe = s.failsafe := rfl
@[simp] theorem State.withWriter_lqThr (s : State) (f : Writer → Writer) : (s.withWriter f).lqThr = s.lqThr := rfl
@[simp] theorem State.withWriter_rssiThr (s : State) (f : Writer → Writer) : (s.withWriter f).rssiThr = s.rssiThr := rfl
@[simp] theorem State.withWriter_tel (s : State) (f : Writer → Writer) : (s.withWriter f).tel = s.tel := rfl
@[simp] theorem State.withWriter_wr (s : State) (f : Writer → Writer) : (s.withWriter f).wr = f s.wr := rfl
@[simp] theorem State.withWriter_port (s : State) (f : Writer → Writer) : (s.withWriter f).port = s.port := rfl
@[simp] theorem State.withWriter_ctl (s : State) (f : Writer → Writer) : (s.withWriter f).ctl = s.ctl := rfl
@[simp] theorem State.withWriter_outputs (s : State) (f : Writer → Writer) : (s.withWriter f).outputs = s.outputs := rfl

/-! ### State.powerOnReset -/

@[simp] theorem State.powerOnReset_dec (s : State) : s.powerOnReset.dec = State.reset.dec := rfl
@[simp] theorem State.powerOnReset_chan (s : State) : s.powerOnReset.chan = State.reset.chan := rfl
@[simp] theorem State.powerOnReset_failsafe (s : State) : s.powerOnReset.failsafe = State.reset.failsafe := rfl
@[simp] theorem State.powerOnReset_lqThr (s : State) : s.powerOnReset.lqThr = State.reset.lqThr := rfl
@[simp] theorem State.powerOnReset_rssiThr (s : State) : s.powerOnReset.rssiThr = State.reset.rssiThr := rfl
@[simp] theorem State.powerOnReset_tel (s : State) : s.powerOnReset.tel = State.reset.tel := rfl
@[simp] theorem State.powerOnReset_wr (s : State) : s.powerOnReset.wr = State.reset.wr := rfl
@[simp] theorem State.powerOnReset_port (s : State) : s.powerOnReset.port = s.port := rfl
@[simp] theorem State.powerOnReset_ctl (s : State) : s.powerOnReset.ctl = State.reset.ctl := rfl
@[simp] theorem State.powerOnReset_outputs (s : State) : s.powerOnReset.outputs = s.outputs := rfl

/-! ### Decoder.toAwaitSync -/

@[simp] theorem Decoder.toAwaitSync_state (d : Decoder) : d.toAwaitSync.state = .awaitSync := rfl
@[simp] theorem Decoder.toAwaitSync_idx (d : Decoder) : d.toAwaitSync.idx = 0 := rfl
@[simp] theorem Decoder.toAwaitSync_len (d : Decoder) : d.toAwaitSync.len = 0 := rfl
@[simp] theorem Decoder.toAwaitSync_rxbuf (d : Decoder) : d.toAwaitSync.rxbuf = d.rxbuf := rfl

/-! ### Telemetry.markPending -/

@[simp] theorem Telemetry.markPending_pending (tel : Telemetry) (k : Kind) : (tel.markPending k).pending = tel.pending.set k true := rfl
@[simp] theorem Telemetry.markPending_batVoltage (tel : Telemetry) (k : Kind) : (tel.markPending k).batVoltage = tel.batVoltage := rfl
@[simp] theorem Telemetry.markPending_batCurrent (tel : Telemetry) (k : Kind) : (tel.markPending k).batCurrent = tel.batCurrent := rfl
@[simp] theorem Telemetry.markPending_batCapacity (tel : Telemetry) (k : Kind) : (tel.markPending k).batCapacity = tel.batCapacity := rfl
@[simp] theorem Telemetry.markPending_batPercent (tel : Telemetry) (k : Kind) : (tel.markPending k).batPercent = tel.batPercent := rfl
@[simp] theorem Telemetry.markPending_cusLen (tel : Telemetry) (k : Kind) : (tel.markPending k).cusLen = tel.cusLen := rfl
@[simp] theorem Telemetry.markPending_cusData (tel : Telemetry) (k : Kind) : (tel.markPending k).cusData = tel.cusData := rfl
@[simp] theorem Telemetry.markPending_muxCursor (tel : Telemetry) (k : Kind) : (tel.markPending k).muxCursor = tel.muxCursor := rfl

/-! ### Writer.start and Writer.setOvf -/

@[simp] theorem Writer.start_txbuf (w : Writer) : w.start.txbuf = w.txbuf := rfl
@[simp] theorem Writer.start_cursor (w : Writer) : w.start.cursor = 0 := rfl
@[simp] theorem Writer.start_ovf (w : Writer) : w.start.ovf = false := rfl
@[simp] theorem Writer.setOvf_txbuf (w : Writer) : w.setOvf.txbuf = w.txbuf := rfl
@[simp] theorem Writer.setOvf_cursor (w : Writer) : w.setOvf.cursor = w.cursor := rfl
@[simp] theorem Writer.setOvf_ovf (w : Writer) : w.setOvf.ovf = true := rfl

/-! ### The reply -/

@[simp] theorem reply_response (c : RespCode) : (reply c).response = { code := c, value := 0 } := rfl
@[simp] theorem reply_events (c : RespCode) : (reply c).events = [] := rfl
@[simp] theorem reply_transmit (c : RespCode) : (reply c).transmit = [] := rfl

end Sys2Proof.Machine
end

