-- ==== Sys2Proof/Laws/Buffers.lean ====
section
/-! SUPPORT. The buffers' laws: what a write changes and what it leaves, what a slice holds, and byte strings as values.
Cited instead of unfolding putBytes, memWrite, slice and beBytes. -/

namespace Sys2Proof.Machine

/-! ### Byte strings -/

@[simp] theorem beBytes_length (n : Nat) (v : BitVec 32) : (beBytes n v).length = n := by simp [beBytes]

/-- Byte j of the big-endian form is the byte of weight n-1-j. -/
theorem beBytes_getElem (n : Nat) (v : BitVec 32) (j : Nat) (h : j < (beBytes n v).length) :
    (beBytes n v)[j] = byteOf v (n - 1 - j) := by
  simp [beBytes]

/-- A byte of a value, as a number. -/
theorem byteOf_eq {w : Nat} (v : BitVec w) (k : Nat) : byteOf v k = BitVec.ofNat 8 (v.toNat / 256 ^ k) := by
  apply BitVec.eq_of_toNat_eq
  simp [byteOf, Nat.shiftRight_eq_div_pow, Nat.pow_mul]

/-- A byte widened to 32 bits is its own low byte. -/
@[simp] theorem lowByte_setWidth (b : Byte) : byteOf (b.setWidth 32) 0 = b := by
  apply BitVec.eq_of_toNat_eq
  have := b.isLt
  simp [byteOf]
  omega

theorem beBytes_one (v : BitVec 32) : beBytes 1 v = [byteOf v 0] := rfl

theorem beBytes_two (v : BitVec 32) : beBytes 2 v = [byteOf v 1, byteOf v 0] := rfl

theorem beBytes_three (v : BitVec 32) : beBytes 3 v = [byteOf v 2, byteOf v 1, byteOf v 0] := rfl

theorem beBytes_four (v : BitVec 32) : beBytes 4 v = [byteOf v 3, byteOf v 2, byteOf v 1, byteOf v 0] := rfl

/-- The little-endian value of a byte string is below 256 to its length. -/
theorem leValue_lt (p : List Byte) : leValue p < 256 ^ p.length := by
  induction p with
  | nil => simp [leValue]
  | cons b bs ih =>
    have hb : b.toNat < 256 := b.isLt
    simp only [leValue, List.length_cons, Nat.pow_succ]
    omega

/-- Byte j of a little-endian value is byte j of the string. -/
theorem leValue_byte (p : List Byte) (j : Nat) : leValue p / 256 ^ j % 256 = (p.getD j 0).toNat := by
  induction p generalizing j with
  | nil => simp [leValue]
  | cons b bs ih =>
    have hb : b.toNat < 256 := b.isLt
    cases j with
    | zero => simp [leValue]; omega
    | succ j =>
      rw [leValue, Nat.pow_succ, Nat.mul_comm (256 ^ j), ← Nat.div_div_eq_div_mul,
        show (b.toNat + 256 * leValue bs) / 256 = leValue bs by omega, ih]
      simp

/-! ### Writes -/

/-- What a list write leaves at each index. -/
theorem putBytes_getElem {n : Nat} (buf : Vector Byte n) (i : Nat) (bs : List Byte) (j : Nat) (hj : j < n) :
    (putBytes buf i bs)[j] = if i ≤ j ∧ j < i + bs.length then bs.getD (j - i) 0 else buf[j] := by
  induction bs generalizing buf i with
  | nil => simp [putBytes]
  | cons b bs ih =>
    rw [putBytes, ih, Vector.getElem_setIfInBounds]
    by_cases hij : i = j
    · subst hij; simp
    · by_cases h : i + 1 ≤ j ∧ j < i + 1 + bs.length
      · have h' : i ≤ j ∧ j < i + (b :: bs).length := by simp; omega
        rw [if_pos h, if_pos h', show j - i = (j - (i + 1)) + 1 by omega]
        simp
      · have h' : ¬(i ≤ j ∧ j < i + (b :: bs).length) := by simp; omega
        rw [if_neg h, if_neg h', if_neg hij]

/-- A list write that fits: the bytes before it, the bytes written, the bytes after it. -/
theorem putBytes_toList {n : Nat} (buf : Vector Byte n) (i : Nat) (bs : List Byte) (h : i + bs.length ≤ n) :
    (putBytes buf i bs).toList = buf.toList.take i ++ bs ++ buf.toList.drop (i + bs.length) := by
  apply List.ext_getElem
  · simp; omega
  · intro j h1 h2
    have hj : j < n := by simpa using h1
    rw [Vector.getElem_toList, putBytes_getElem buf i bs j hj]
    by_cases hji : j < i
    · rw [if_neg (by omega), List.getElem_append_left (by simp; omega), List.getElem_append_left (by simp; omega)]
      simp
    · by_cases hjb : j < i + bs.length
      · rw [if_pos (by omega), List.getElem_append_left (by simp; omega), List.getElem_append_right (by simp; omega)]
        rw [List.getD_eq_getElem?_getD, List.getElem?_eq_getElem (show j - i < bs.length by omega), Option.getD_some]
        congr 1
        simp
        omega
      · rw [if_neg (by omega), List.getElem_append_right (by simp; omega)]
        simp only [List.length_append, List.length_take, Vector.length_toList, List.getElem_drop, Vector.getElem_toList]
        congr 1
        omega

/-- A wide write that fits: the bytes below the cursor stay, the value's bytes follow. -/
theorem memWrite_take {m : Nat} (buf : Vector Byte m) (i n : Nat) (v : BitVec 32) (h : i + n ≤ m) :
    (memWrite buf i n v).toList.take (i + n) = buf.toList.take i ++ beBytes n v := by
  have hl : (buf.toList.take i ++ beBytes n v).length = i + n := by simp; omega
  rw [memWrite, putBytes_toList _ _ _ (by simpa using h), ← hl, List.take_left]

/-- Reading back a wide write gives the value's low bytes. -/
theorem memRead_memWrite {m : Nat} (buf : Vector Byte m) (i n : Nat) (v : BitVec 32) (h : i + n ≤ m) :
    memRead (memWrite buf i n v) i n = beValue (beBytes n v) := by
  have hl : (buf.toList.take i).length = i := by simp; omega
  rw [memRead, List.take_drop, memWrite_take _ _ _ _ h, List.drop_left' hl]

/-! ### Slices -/

theorem slice_eq_drop_take {n : Nat} (buf : Vector Byte n) (a b : Nat) : slice buf a b = (buf.toList.take (b + 1)).drop a := rfl

theorem slice_length {n : Nat} (buf : Vector Byte n) (a b : Nat) (h : b < n) : (slice buf a b).length = b + 1 - a := by
  simp [slice]; omega

/-- Byte j of `buf[a..b]` is `buf[a+j]`. -/
theorem slice_getElem {n : Nat} (buf : Vector Byte n) (a b j : Nat) (h : j < (slice buf a b).length) :
    (slice buf a b)[j] = buf[a + j]'(by simp [slice] at h; omega) := by
  simp [slice]

/-- A slice does not see a write outside it. -/
theorem slice_set_of_lt {n : Nat} (buf : Vector Byte n) (a b i : Nat) (x : Byte) (hi : i < n) (h : b < i) :
    slice (buf.set i x) a b = slice buf a b := by
  apply List.ext_getElem
  · simp [slice]
  · intro j h1 h2
    rw [slice_getElem, slice_getElem, Vector.getElem_set_ne]
    simp [slice] at h1
    omega

end Sys2Proof.Machine
end

