-- ==== Sys2Proof/Laws/Crc.lean ====
section
/-! SUPPORT. The CRC8 engine's laws: the table is the pseudocode of 40_crc8.md R111, an update is linear over exclusive
or, and the function byte by byte. -/

namespace Sys2Proof.Machine

set_option maxRecDepth 4000 in
/-- The table as data equals R111's pseudocode at each of its 256 entries, so no transcription error can pass. -/
theorem crcTab_eq_bitwise (i : Byte) : crcTab i = crcTabBitwise i := by
  have h : ∀ n : Fin 256, crcTab (BitVec.ofFin n) = crcTabBitwise (BitVec.ofFin n) := by decide
  exact h i.toFin

@[simp] theorem crcTab_zero : crcTab 0 = 0 := by decide

/-- One shift is linear over exclusive or. -/
theorem crcShift_xor (a b : Byte) : crcShift (a ^^^ b) = crcShift a ^^^ crcShift b := by
  have hab : (a ^^^ b).msb = (a.msb ^^ b.msb) := BitVec.msb_xor
  have hs : (a ^^^ b) <<< 1 = a <<< 1 ^^^ b <<< 1 := BitVec.shiftLeft_xor_distrib a b 1
  unfold crcShift
  rw [hab, hs]
  cases a.msb <;> cases b.msb <;> ext k hk <;> simp <;> grind

/-- A table entry is linear over exclusive or. -/
theorem crcTab_xor (a b : Byte) : crcTab (a ^^^ b) = crcTab a ^^^ crcTab b := by
  have h : ∀ n : Nat, Nat.repeat crcShift n (a ^^^ b) = Nat.repeat crcShift n a ^^^ Nat.repeat crcShift n b := by
    intro n
    induction n with
    | zero => rfl
    | succ n ih => simp only [Nat.repeat, ih, crcShift_xor]
  simp only [crcTab_eq_bitwise, crcTabBitwise, h]

@[simp] theorem crc8_nil : crc8 [] = 0 := by decide

/-- The last byte's update (R110). -/
theorem crc8_snoc (d : List Byte) (x : Byte) : crc8 (d ++ [x]) = crcTab (crc8 d ^^^ x) := by
  simp [crc8, Config.crcXorOut]

end Sys2Proof.Machine
end

