-- ==== Sys2Proof/Laws/Decode.lean ====
section
/-! SUPPORT. The decoder's laws: big-endian fields put together again, and each format's decoding of its own encoding. -/

namespace Sys2Proof

@[simp] theorem be16_byteOf (v : BitVec 16) : be16 (byteOf v 1) (byteOf v 0) = v := by
  unfold be16 byteOf
  ext k hk
  simp
  grind

@[simp] theorem be24_byteOf (v : BitVec 24) : be24 (byteOf v 2) (byteOf v 1) (byteOf v 0) = v := by
  unfold be24 byteOf
  ext k hk
  simp
  grind

/-- An FN command's operand bytes give its data back, and what follows them. -/
theorem decodeFN_encoded (mk : List Byte → Instr) (data rest : List Byte) (h : data.length ≤ 255) :
    decodeFN mk (BitVec.ofNat 8 data.length :: data ++ rest) = .ok (mk data, rest) := by
  have hn : (BitVec.ofNat 8 data.length).toNat = data.length := by simp; omega
  simp [decodeFN, hn]

/-- The F8 command's operand bytes give its fields back. -/
theorem decodeF8_encoded (v c : BitVec 16) (k : BitVec 24) (p : Byte) (rest : List Byte) :
    decodeF8 (byteOf v 1 :: byteOf v 0 :: byteOf c 1 :: byteOf c 0 :: byteOf k 2 :: byteOf k 1 :: byteOf k 0 :: p :: rest) =
      .ok (.setbat v c k p, rest) := by
  simp [decodeF8]

/-! ### The control word's fields -/

@[simp] theorem wopOf_controlWord (o : BitVec 4) (i : BitVec 6) (d : BitVec 32) : wopOf (controlWord o i d) = o := by
  unfold wopOf controlWord
  ext k hk
  simp
  grind

@[simp] theorem widxOf_controlWord (o : BitVec 4) (i : BitVec 6) (d : BitVec 32) : widxOf (controlWord o i d) = i := by
  unfold widxOf controlWord
  ext k hk
  simp
  grind

@[simp] theorem wdataOf_controlWord (o : BitVec 4) (i : BitVec 6) (d : BitVec 32) : wdataOf (controlWord o i d) = d := by
  unfold wdataOf controlWord
  ext k hk
  simp
  grind

end Sys2Proof
end

