-- ==== Sys2Proof/Laws/Writer.lean ====
section
/-! SUPPORT. The writer's laws, in terms of its content (41_buffer_writer.md R142): what an append and a patch do, and
when they only set `wr_ovf`. -/

namespace Sys2Proof.Machine

@[simp] theorem Writer.content_length (w : Writer) : w.content.length = w.cursor.val := by
  simp [Writer.content]; omega

@[simp] theorem Writer.start_content (w : Writer) : w.start.content = [] := rfl

/-- Everything an append that fits does (R131). -/
theorem Writer.append_fits (n : Nat) (v : BitVec 32) (w : Writer) (h : w.cursor.val + n ≤ 64) :
    (w.append n v).cursor.val = w.cursor.val + n ∧ (w.append n v).ovf = w.ovf ∧
      (w.append n v).txbuf = memWrite w.txbuf w.cursor n v ∧ (w.append n v).content = w.content ++ beBytes n v := by
  simp only [Writer.append, dif_pos h, Writer.content, memWrite_take _ _ _ _ h, and_self]

/-- An append that does not fit only sets `wr_ovf` (R132). -/
theorem Writer.append_overflows (n : Nat) (v : BitVec 32) (w : Writer) (h : ¬w.cursor.val + n ≤ 64) :
    w.append n v = w.setOvf := by
  simp only [Writer.append, dif_neg h]

/-- Everything a patch below the cursor does (R141). -/
theorem Writer.patch_below (i : BitVec 6) (v : BitVec 32) (w : Writer) (h : i.toNat < w.cursor.val) :
    (w.patch i v).cursor = w.cursor ∧ (w.patch i v).ovf = w.ovf ∧
      (w.patch i v).txbuf = w.txbuf.set i.toNat (lowByte v) i.isLt ∧
      (w.patch i v).content = w.content.set i.toNat (lowByte v) := by
  simp only [Writer.patch, if_pos h, Writer.content, Vector.toList_set, List.take_set, and_self]

/-- A patch at or past the cursor only sets `wr_ovf` (R141). -/
theorem Writer.patch_past (i : BitVec 6) (v : BitVec 32) (w : Writer) (h : ¬i.toNat < w.cursor.val) :
    w.patch i v = w.setOvf := by
  simp only [Writer.patch, if_neg h]

/-- Bytes appended one by one, when they fit: the content grows by them, nothing overflows. -/
theorem Writer.appendBytes_fits (bs : List Byte) (w : Writer) (h : w.cursor.val + bs.length ≤ 64) :
    (w.appendBytes bs).cursor.val = w.cursor.val + bs.length ∧ (w.appendBytes bs).ovf = w.ovf ∧
      (w.appendBytes bs).content = w.content ++ bs := by
  induction bs generalizing w with
  | nil => simp [Writer.appendBytes]
  | cons b bs ih =>
    simp only [List.length_cons] at h
    obtain ⟨h1, h2, -, h4⟩ := w.append_fits 1 (b.setWidth 32) (by omega)
    obtain ⟨i1, i2, i3⟩ := ih (w.append 1 (b.setWidth 32)) (by omega)
    have hb : beBytes 1 (b.setWidth 32) = [b] := by
      rw [beBytes_one, lowByte_setWidth]
    refine ⟨?_, ?_, ?_⟩
    · rw [List.length_cons, show w.cursor.val + (bs.length + 1) = w.cursor.val + 1 + bs.length by omega, ← h1, ← i1]; rfl
    · rw [← h2, ← i2]; rfl
    · rw [show w.content ++ b :: bs = (w.content ++ [b]) ++ bs by simp, ← hb, ← h4, ← i3]; rfl

end Sys2Proof.Machine
end

