-- ==== Sys2Proof/Laws/Telemetry.lean ====
section
/-! SUPPORT. The telemetry encoder's laws: what `build_frame` leaves in the writer, and which kind a scan finds. -/

namespace Sys2Proof.Machine

/-- A packed custom payload has the stored length. -/
@[simp] theorem packCus_length (len : Fin 61) (data : Vector Byte 60) : (packCus len data).length = len.val := by
  simp [packCus]; omega

/-- No payload is longer than CUSTOM_MAX (45_telemetry_mux.md R225). -/
theorem Telemetry.payload_length_le (tel : Telemetry) (k : Kind) : (tel.payload k).length ≤ 60 := by
  unfold Telemetry.payload
  split
  · simp [packBat]
  · simp; omega

/-- The payload's appends write the payload. -/
theorem Writer.appendPayload_spec (tel : Telemetry) (k : Kind) (w : Writer) (h : w.cursor.val = 3) :
    (w.appendPayload tel k).cursor.val = 3 + (tel.payload k).length ∧ (w.appendPayload tel k).ovf = w.ovf ∧
      (w.appendPayload tel k).content = w.content ++ tel.payload k := by
  unfold Writer.appendPayload Telemetry.payload
  split
  · obtain ⟨a1, a2, -, a3⟩ := w.append_fits 2 (tel.batVoltage.setWidth 32) (by omega)
    obtain ⟨b1, b2, -, b3⟩ := (w.append 2 (tel.batVoltage.setWidth 32)).append_fits 2 (tel.batCurrent.setWidth 32) (by omega)
    obtain ⟨c1, c2, -, c3⟩ := ((w.append 2 (tel.batVoltage.setWidth 32)).append 2
      (tel.batCurrent.setWidth 32)).append_fits 3 (tel.batCapacity.setWidth 32) (by omega)
    obtain ⟨d1, d2, -, d3⟩ := (((w.append 2 (tel.batVoltage.setWidth 32)).append 2
      (tel.batCurrent.setWidth 32)).append 3 (tel.batCapacity.setWidth 32)).append_fits 1 (tel.batPercent.setWidth 32) (by omega)
    refine ⟨by rw [d1, c1, b1, a1, h]; rfl, by rw [d2, c2, b2, a2], ?_⟩
    rw [d3, c3, b3, a3]
    have low {n : Nat} (v : BitVec n) (j : Nat) (hn : n ≤ 32) : byteOf (v.setWidth 32) j = byteOf v j := by
      rw [byteOf_eq, byteOf_eq, BitVec.toNat_setWidth_of_le hn]
    simp only [beBytes_one, beBytes_two, beBytes_three, lowByte_setWidth, packBat, low _ _ (show 16 ≤ 32 by decide),
      low _ _ (show 24 ≤ 32 by decide), List.append_assoc, List.cons_append, List.nil_append]
  · have hl := packCus_length tel.cusLen tel.cusData
    have h60 : tel.cusLen.val < 61 := tel.cusLen.isLt
    obtain ⟨a1, a2, a3⟩ := w.appendBytes_fits (packCus tel.cusLen tel.cusData) (by omega)
    exact ⟨by rw [a1, h], a2, a3⟩

/-- The frame's head is three bytes. -/
theorem Writer.header_spec (k : Kind) (w : Writer) :
    (w.header k).cursor.val = 3 ∧ (w.header k).ovf = false ∧
      (w.header k).content = [Config.syncTx, 0x00, frameType k] := by
  unfold Writer.header
  obtain ⟨a1, a2, -, a3⟩ := w.start.append_fits 1 (Config.syncTx.setWidth 32) (by simp)
  obtain ⟨b1, b2, -, b3⟩ := (w.start.append 1 (Config.syncTx.setWidth 32)).append_fits 1 0x00 (by rw [a1]; simp)
  obtain ⟨c1, c2, -, c3⟩ := ((w.start.append 1 (Config.syncTx.setWidth 32)).append 1 0x00).append_fits 1
    ((frameType k).setWidth 32) (by rw [b1, a1]; simp)
  refine ⟨by rw [c1, b1, a1]; rfl, by rw [c2, b2, a2]; rfl, ?_⟩
  rw [c3, b3, a3]
  simp only [Writer.start_content, beBytes_one, lowByte_setWidth]
  rfl

/-- The frame's end puts the length at index 1 and the CRC of what follows it at the end. -/
theorem Writer.finish_spec (w : Writer) (h : 2 ≤ w.cursor.val) (h' : w.cursor.val ≤ 63) :
    w.finish.cursor.val = w.cursor.val + 1 ∧ w.finish.ovf = w.ovf ∧
      w.finish.content =
        w.content.set 1 (BitVec.ofNat 8 (w.cursor.val - 1)) ++ [crc8 (w.content.drop 2)] := by
  obtain ⟨e1, e2, -, e3⟩ := w.patch_below 1 (BitVec.ofNat 32 (w.cursor.val - 1)) (by simp; omega)
  have hb : lowByte (BitVec.ofNat 32 (w.cursor.val - 1)) = BitVec.ofNat 8 (w.cursor.val - 1) := by
    apply BitVec.eq_of_toNat_eq
    simp [lowByte, byteOf]
  have hc : (w.content.set 1 (BitVec.ofNat 8 (w.cursor.val - 1))).drop 2 = w.content.drop 2 := List.drop_set_of_lt (by decide)
  rw [hb, show (1 : BitVec 6).toNat = 1 from rfl] at e3
  obtain ⟨f1, f2, -, f3⟩ := (w.patch 1 (BitVec.ofNat 32 (w.cursor.val - 1))).append_fits 1
    ((crc8 ((w.patch 1 (BitVec.ofNat 32 (w.cursor.val - 1))).content.drop 2)).setWidth 32) (by rw [e1]; omega)
  refine ⟨by rw [Writer.finish, f1, e1], by rw [Writer.finish, f2, e2], ?_⟩
  rw [Writer.finish, f3, beBytes_one, lowByte_setWidth, e3, hc]

/-- Everything `build_frame(k)` does (45_telemetry_mux.md R228): the writer holds the whole frame, and never overflows. -/
theorem buildFrame_spec (tel : Telemetry) (k : Kind) (w : Writer) :
    (buildFrame tel k w).content = frameBytes Config.syncTx (frameType k) (tel.payload k) ∧
      (buildFrame tel k w).cursor.val = (tel.payload k).length + 4 ∧ (buildFrame tel k w).ovf = false := by
  have hlen := tel.payload_length_le k
  obtain ⟨a1, a2, a3⟩ := w.header_spec k
  obtain ⟨b1, b2, b3⟩ := (w.header k).appendPayload_spec tel k a1
  obtain ⟨c1, c2, c3⟩ := ((w.header k).appendPayload tel k).finish_spec (by omega) (by omega)
  refine ⟨?_, by rw [buildFrame, c1, b1]; omega, by rw [buildFrame, c2, b2, a2]⟩
  rw [buildFrame, c3, b3, a3, b1, show 3 + (tel.payload k).length - 1 = (tel.payload k).length + 2 by omega]
  rfl

/-- The kind a scan finds (45_telemetry_mux.md R229): the cursor's if pending, else the other if pending, else none. -/
theorem nextKind_eq (tel : Telemetry) :
    tel.nextKind = if tel.pending[tel.muxCursor] then some tel.muxCursor
      else if tel.pending[tel.muxCursor + 1] then some (tel.muxCursor + 1) else none := by
  simp only [Telemetry.nextKind, List.range, List.range.loop, List.map, List.find?]
  have h0 : tel.muxCursor + Fin.ofNat 2 0 = tel.muxCursor := by simp
  have h1 : tel.muxCursor + Fin.ofNat 2 1 = tel.muxCursor + 1 := by congr 1
  simp only [h0, h1]
  split <;> split <;> simp_all

end Sys2Proof.Machine
end

