-- ==== Sys2Proof/Laws/Exec.lean ====
section
/-! SUPPORT. What each kind of instruction can do, said once: the steps of FEED, the commands that only touch telemetry,
and the micro-ops, as full next states. -/

namespace Sys2Proof.Machine

/-! ### FEED -/

/-- FEED of a CRC byte, the range inside rxbuf: mismatch or dispatch. -/
theorem feedCrc_eq (b : Byte) (s : State) (h : s.dec.len.toNat < 64) :
    feedCrc b s = .next (if crc8 (slice (s.dec.rxbuf.set s.dec.idx b) 2 s.dec.len.toNat) ≠ b
      then (s.afterCrc b).respond (reply .crcMismatch) else dispatch s.dec.len.toNat (s.afterCrc b)) := by
  simp only [feedCrc, if_pos h, State.afterCrc]
  split <;> rfl

/-- What a dispatch changes beyond the response: nothing, the channel table, or the failsafe flag. -/
theorem dispatch_cases (len : Nat) (s : State) :
    (∃ code, (code = .frameIgnored ∨ code = .frameSizeMismatch) ∧ dispatch len s = s.respond (reply code)) ∨
    (s.dec.rxbuf[2] = 0x16 ∧ len - 2 = 22 ∧ dispatch len s = rcDispatch s) ∨
    (s.dec.rxbuf[2] = 0x14 ∧ len - 2 = 10 ∧ dispatch len s = linkDispatch s) := by
  by_cases hr : s.dec.rxbuf[2] = 0x16
  · by_cases hm : len - 2 = 22
    · exact .inr (.inl ⟨hr, hm, by simp [dispatch, Config.typeRc, hr, hm]⟩)
    · exact .inl ⟨_, .inr rfl, by simp [dispatch, Config.typeRc, hr, hm]⟩
  · by_cases hl : s.dec.rxbuf[2] = 0x14
    · by_cases hm : len - 2 = 10
      · exact .inr (.inr ⟨hl, hm, by simp [dispatch, Config.typeRc, Config.typeLs, hl, hm]⟩)
      · exact .inl ⟨_, .inr rfl, by simp [dispatch, Config.typeRc, Config.typeLs, hl, hm]⟩
    · exact .inl ⟨_, .inl rfl, by unfold dispatch; exact (if_neg hr).trans (if_neg hl)⟩

/-- The events, channel table and failsafe flag of a FEED with a next state go together. -/
inductive FeedEffect (s t : State) (o : StepOutput) : Prop where
  /-- Nothing is delivered. -/
  | quiet (he : o.events = []) (hc : t.chan = s.chan) (hf : t.failsafe = s.failsafe)
      (hr : o.response.code ≠ .frameRc ∧ o.response.code ≠ .frameLink)
  /-- An RC frame is delivered. -/
  | rc (he : o.events = [.rc t.chan]) (hf : t.failsafe = s.failsafe) (hr : o.response.code = .frameRc)
  /-- A link-statistics frame is delivered. -/
  | link (ls : LinkStats) (he : o.events = .link ls :: failsafeEvents s.failsafe t.failsafe) (hc : t.chan = s.chan)
      (hf : t.failsafe = fsEval ls s.lqThr s.rssiThr) (hr : o.response.code = .frameLink)

/-- Everything a dispatch can do. -/
theorem dispatch_effect (len : Nat) (s : State) : ∃ o,
    dispatch len s =
      { s with chan := (dispatch len s).chan, failsafe := (dispatch len s).failsafe, outputs := s.outputs ++ [o] } ∧
    o.response.value = 0 ∧ o.transmit = [] ∧ o.response.code ≠ .progress ∧ o.response.code.toByte.toNat ≤ 7 ∧
    FeedEffect s (dispatch len s) o := by
  obtain ⟨code, hcode, h⟩ | ⟨-, -, h⟩ | ⟨-, -, h⟩ := dispatch_cases len s <;> rw [h]
  · refine ⟨reply code, rfl, rfl, rfl, ?_, ?_, .quiet rfl rfl rfl ?_⟩ <;>
      rcases hcode with rfl | rfl <;> decide
  · exact ⟨_, rfl, rfl, rfl, by simp, show RespCode.frameRc.toByte.toNat ≤ 7 by decide, .rc rfl rfl rfl⟩
  · exact ⟨_, rfl, rfl, rfl, by simp, show RespCode.frameLink.toByte.toNat ≤ 7 by decide, .link _ rfl rfl rfl rfl⟩

/-- Everything a FEED with a next state can do: one output with value 0 and no transmit bytes, and after any outcome but
PROGRESS the decoder waits for a sync byte. -/
theorem execFeed_next (b : Byte) (s t : State) (h : execFeed b s = .next t) : ∃ o,
    t = { s with dec := t.dec, chan := t.chan, failsafe := t.failsafe, outputs := s.outputs ++ [o] } ∧
    o.response.value = 0 ∧ o.transmit = [] ∧ o.response.code.toByte.toNat ≤ 7 ∧
    (o.response.code = .progress ∨ t.dec.state = .awaitSync) ∧ FeedEffect s t o := by
  unfold execFeed at h
  split at h
  · rename_i hst
    simp only [feedSync] at h
    split at h <;> obtain rfl := Host.Outcome.next.inj h
    · exact ⟨reply .progress, rfl, rfl, rfl, by decide, .inl rfl, .quiet rfl rfl rfl (by simp)⟩
    · exact ⟨reply .syncDiscard, rfl, rfl, rfl, by decide, .inr hst, .quiet rfl rfl rfl (by simp)⟩
  · simp only [feedLength] at h
    split at h <;> obtain rfl := Host.Outcome.next.inj h
    · exact ⟨reply .progress, rfl, rfl, rfl, by decide, .inl rfl, .quiet rfl rfl rfl (by simp)⟩
    · exact ⟨reply .lengthReject, rfl, rfl, rfl, by decide, .inr rfl, .quiet rfl rfl rfl (by simp)⟩
  · simp only [feedAccumulate] at h
    split at h
    · obtain rfl := Host.Outcome.next.inj h
      exact ⟨reply .progress, rfl, rfl, rfl, by decide, .inl rfl, .quiet rfl rfl rfl (by simp)⟩
    · cases h
  · by_cases hl : s.dec.len.toNat < 64
    · rw [feedCrc_eq b s hl] at h
      split at h <;> obtain rfl := Host.Outcome.next.inj h
      · exact ⟨reply .crcMismatch, rfl, rfl, rfl, by decide, .inr rfl, .quiet rfl rfl rfl (by simp)⟩
      · obtain ⟨o, ho, h1, h2, h3, h4, h5⟩ := dispatch_effect s.dec.len.toNat (s.afterCrc b)
        refine ⟨o, ?_, h1, h2, h4, .inr (by rw [ho]; rfl), ?_⟩
        · rw [ho]; rfl
        · cases h5 with
          | quiet he hc hf hr => exact .quiet he hc hf hr
          | rc he hf hr => exact .rc he hf hr
          | link ls he hc hf hr => exact .link ls he hc hf hr
    · simp [feedCrc, hl] at h

/-- From a legal decoder state a FEED completes, in a legal decoder state (10_state.md R38). -/
theorem execFeed_inv (b : Byte) (s : State) (h : s.dec.Inv) : ∃ t, execFeed b s = .next t ∧ t.dec.Inv := by
  obtain ⟨hs, hl, ha, hc⟩ := h
  unfold execFeed
  cases hst : s.dec.state with
  | awaitSync =>
    simp only [feedSync]
    split
    · exact ⟨_, rfl, by simp, by simpa [Config.syncA, Config.syncB] using ‹_›, by simp, by simp⟩
    · exact ⟨_, rfl, hs, hl, ha, hc⟩
  | awaitLength =>
    simp only [feedLength]
    split
    · rename_i hb
      exact ⟨_, rfl, by simp, by simp, fun _ => ⟨hb.1, hb.2, by simp, by simp, hb.1⟩, by simp⟩
    · exact ⟨_, rfl, by simp, by simp, by simp, by simp⟩
  | accumulate =>
    obtain ⟨h2, h62, h1, hi, hil⟩ := ha hst
    have hlt : s.dec.idx.val + 1 < 64 := by omega
    simp only [feedAccumulate, dif_pos hlt]
    refine ⟨_, rfl, ?_, ?_, ?_, ?_⟩
    · simp; split <;> simp
    · simp; split <;> simp
    · simp only [State.respond_dec]
      split
      · simp
      · intro _
        refine ⟨h2, h62, ?_, by omega, by omega⟩
        rw [← h1]
        exact Vector.getElem_set_ne _ _ (by omega)
    · simp only [State.respond_dec]
      split
      · intro _; exact ⟨h2, h62, by omega⟩
      · simp
  | awaitCrc =>
    obtain ⟨h2, h62, hi⟩ := hc hst
    change ∃ t, feedCrc b s = .next t ∧ t.dec.Inv
    rw [feedCrc_eq b s (by omega)]
    refine ⟨_, rfl, ?_⟩
    split
    · exact ⟨by simp [State.afterCrc], by simp [State.afterCrc], by simp [State.afterCrc], by simp [State.afterCrc]⟩
    · obtain ⟨o, ho, -⟩ := dispatch_effect s.dec.len.toNat (s.afterCrc b)
      rw [ho]
      exact ⟨by simp [State.afterCrc], by simp [State.afterCrc], by simp [State.afterCrc], by simp [State.afterCrc]⟩

/-! ### POLL -/

/-- A POLL with a kind pending, as a full next state. -/
theorem execPoll_some (s : State) (k : Kind) (h : s.tel.nextKind = some k) :
    execPoll s = .next ({ s with wr := buildFrame s.tel k s.wr, tel := { s.tel with muxCursor := k + 1 } }.respond
      ⟨⟨pollCode k, 0⟩, [], frameBytes Config.syncTx (frameType k) (s.tel.payload k)⟩) := by
  simp only [execPoll, h, (buildFrame_spec s.tel k s.wr).1]

/-- A POLL with nothing pending only responds. -/
theorem execPoll_none (s : State) (h : s.tel.nextKind = none) : execPoll s = .next (s.respond (reply .pollNone)) := by
  simp only [execPoll, h]

/-! ### All instructions -/

/-- No meaning reads or moves the command port or the writer's bus. -/
theorem exec_keeps_port (i : Instr) (s t : State) (h : exec i s = .next t) : t.port = s.port ∧ t.ctl = s.ctl := by
  cases i with
  | feed b =>
    obtain ⟨o, ho, -⟩ := execFeed_next b s t h
    rw [ho]
    exact ⟨rfl, rfl⟩
  | poll =>
    cases hk : s.tel.nextKind with
    | none => rw [show exec .poll s = _ from execPoll_none s hk] at h; cases h; exact ⟨rfl, rfl⟩
    | some k => rw [show exec .poll s = _ from execPoll_some s k hk] at h; cases h; exact ⟨rfl, rfl⟩
  | setcus data => simp only [exec, execSetcus] at h; split at h <;> cases h <;> exact ⟨rfl, rfl⟩
  | wReserved wop => cases h
  | dreset | setlqt | setrst | setbat | crc | illegal | wReset | wU8 | wS8 | wU16 | wS16 | wU24 | wS24 | wU32 | wS32
  | wPatch => cases h; exact ⟨rfl, rfl⟩

end Sys2Proof.Machine
end

