-- ==== Sys2Proof/Laws/PerInstr.lean ====
section
/-! SUPPORT. The family DecodeEncode, one lemma per instruction: the decoder reads a well-formed instruction's own words,
with nothing after them, as that instruction. -/

namespace Sys2Proof.Laws.DecodeEncode

/-- What the decoder reads from an instruction's own words. -/
def Statement (i : Instr) : Prop :=
  i.wellFormed = true →
    match encode i with
    | .command bytes => decodeCommand bytes = .ok (i, [])
    | .control w => decodeControl w = i

theorem feed (b) : Statement (.feed b) := by
  intro _
  rfl

theorem dreset : Statement (.dreset) := by
  intro _
  rfl

theorem setlqt (t) : Statement (.setlqt t) := by
  intro _
  rfl

theorem setrst (t) : Statement (.setrst t) := by
  intro _
  rfl

theorem setbat (v c k p) : Statement (.setbat v c k p) := by
  intro _
  simpa [encode, decodeCommand] using decodeF8_encoded v c k p []

theorem setcus (data) : Statement (.setcus data) := by
  intro h
  have := decodeFN_encoded .setcus data [] (by simpa [Instr.wellFormed] using h)
  simpa [encode, encodeFN, decodeCommand] using this

theorem poll : Statement (.poll) := by
  intro _
  rfl

theorem crc (data) : Statement (.crc data) := by
  intro h
  have := decodeFN_encoded .crc data [] (by simpa [Instr.wellFormed] using h)
  simpa [encode, encodeFN, decodeCommand] using this

theorem illegal (op) : Statement (.illegal op) := by
  intro h
  have hop : op.toNat = 0 ∨ 9 ≤ op.toNat := by simpa [Instr.wellFormed, isIllegalOpcode] using h
  simp only [encode, decodeCommand]
  split <;> first | omega | rfl

theorem wReset : Statement (.wReset) := by
  intro _
  simp [encode, decodeControl]

theorem wU8 (wdata) : Statement (.wU8 wdata) := by
  intro _
  simp [encode, decodeControl]

theorem wS8 (wdata) : Statement (.wS8 wdata) := by
  intro _
  simp [encode, decodeControl]

theorem wU16 (wdata) : Statement (.wU16 wdata) := by
  intro _
  simp [encode, decodeControl]

theorem wS16 (wdata) : Statement (.wS16 wdata) := by
  intro _
  simp [encode, decodeControl]

theorem wU24 (wdata) : Statement (.wU24 wdata) := by
  intro _
  simp [encode, decodeControl]

theorem wS24 (wdata) : Statement (.wS24 wdata) := by
  intro _
  simp [encode, decodeControl]

theorem wU32 (wdata) : Statement (.wU32 wdata) := by
  intro _
  simp [encode, decodeControl]

theorem wS32 (wdata) : Statement (.wS32 wdata) := by
  intro _
  simp [encode, decodeControl]

theorem wPatch (widx wdata) : Statement (.wPatch widx wdata) := by
  intro _
  simp [encode, decodeControl]

theorem wReserved (wop) : Statement (.wReserved wop) := by
  intro h
  have hop : 10 ≤ wop.toNat := by simpa [Instr.wellFormed, isReservedWop] using h
  simp only [encode, decodeControl, wopOf_controlWord]
  split <;> first | omega | rfl

end Sys2Proof.Laws.DecodeEncode
end

