-- ==== Sys2Proof/Laws/Step.lean ====
section
/-! SUPPORT. What a step and a run can do, said once: a decoded command is a command, the two kinds of a step with an empty
writer bus, the completion of commands, and that no meaning sees the port. -/

namespace Sys2Proof.Machine

/-! ### Steps -/

/-- What the command decoder cuts off is a command, never a micro-op. -/
theorem decodeCommand_isCommand (bs : List Byte) (i : Instr) (rest : List Byte) (h : decodeCommand bs = .ok (i, rest)) :
    i.isCommand = true := by
  unfold decodeCommand at h
  split at h
  · cases h
  · split at h
    all_goals first
      | (cases h; rfl)
      | (unfold decodeF1 at h; split at h <;> cases h; rfl)
      | (unfold decodeF8 at h; split at h <;> cases h; rfl)
      | (unfold decodeFN at h; split at h <;> [(split at h <;> cases h; rfl); cases h])

/-- A step with an empty writer bus runs the port's first command, or holds. -/
theorem step_cases (s : State) (h : s.ctl = none) :
    (∃ i rest, decodeCommand s.port = .ok (i, rest) ∧ i.isCommand = true ∧ step s = exec i { s with port := rest }) ∨
    (∃ why, decodeCommand s.port = .error why ∧ step s = .next s) := by
  unfold step fetch
  rw [h]
  cases hd : decodeCommand s.port with
  | ok p => exact .inl ⟨p.1, p.2, rfl, decodeCommand_isCommand _ _ _ hd, rfl⟩
  | error why => exact .inr ⟨why, rfl, rfl⟩

/-- From a legal decoder state every command completes. -/
theorem exec_completes (i : Instr) (s : State) (hi : i.isCommand = true) (h : s.dec.Inv) : ∃ t, exec i s = .next t := by
  cases i <;> simp [Instr.isCommand] at hi
  case feed b => obtain ⟨t, h, -⟩ := execFeed_inv b s h; exact ⟨t, h⟩
  case poll =>
    cases hk : s.tel.nextKind with
    | none => exact ⟨_, execPoll_none s hk⟩
    | some k => exact ⟨_, execPoll_some s k hk⟩
  case setcus d => simp only [exec, execSetcus]; split <;> exact ⟨_, rfl⟩
  all_goals exact ⟨_, rfl⟩

/-- A dispatch does not see the port. -/
theorem dispatch_port (len : Nat) (s : State) (p : List Byte) :
    dispatch len { s with port := p } = { dispatch len s with port := p } := by
  by_cases h1 : s.dec.rxbuf[2] = Config.typeRc
  · by_cases h2 : len - 2 = 22 <;> simp only [dispatch, h1, h2, if_pos, if_neg, not_false_iff] <;> rfl
  · by_cases h2 : s.dec.rxbuf[2] = Config.typeLs
    · by_cases h3 : len - 2 = 10 <;> simp only [dispatch, h2, h3, if_pos, if_neg, not_false_iff] <;> rfl
    · simp only [dispatch, h1, h2, if_neg, not_false_iff]; rfl

/-- What a FEED does, whatever waits on the port. -/
theorem execFeed_port (b : Byte) (s t : State) (p : List Byte) (h : execFeed b s = .next t) :
    execFeed b { s with port := p } = .next { t with port := p } := by
  cases hst : s.dec.state with
  | awaitSync =>
    simp only [execFeed, hst, feedSync] at h ⊢
    split at h <;> cases h <;> simp only [if_pos, if_neg, *, not_false_iff] <;> rfl
  | awaitLength =>
    simp only [execFeed, hst, feedLength] at h ⊢
    split at h <;> cases h <;> simp only [if_neg, *, not_false_iff] <;> rfl
  | accumulate =>
    simp only [execFeed, hst, feedAccumulate] at h ⊢
    split at h
    · rename_i hi; cases h; rw [dif_pos hi]; rfl
    · cases h
  | awaitCrc =>
    by_cases hl : s.dec.len.toNat < 64
    · simp only [execFeed, hst] at h ⊢
      rw [feedCrc_eq b s hl] at h
      rw [feedCrc_eq b _ (by exact hl)]
      cases h
      congr 1
      simp only
      split
      · rfl
      · exact dispatch_port s.dec.len.toNat (s.afterCrc b) p
    · simp [execFeed, hst, feedCrc, hl] at h

/-- What an instruction does, whatever waits on the port. -/
theorem exec_port (i : Instr) (s t : State) (p : List Byte) (h : exec i s = .next t) :
    exec i { s with port := p } = .next { t with port := p } := by
  cases i with
  | feed b => exact execFeed_port b s t p h
  | poll =>
    cases hk : s.tel.nextKind with
    | none =>
      rw [show exec .poll s = _ from execPoll_none s hk] at h
      cases h
      exact execPoll_none { s with port := p } hk
    | some k =>
      rw [show exec .poll s = _ from execPoll_some s k hk] at h
      cases h
      exact execPoll_some { s with port := p } k hk
  | setcus data => simp only [exec, execSetcus] at h ⊢; split at h <;> cases h <;> simp only [*, dif_pos] <;> rfl
  | wReserved wop => cases h
  | dreset | setlqt | setrst | setbat | crc | illegal | wReset | wU8 | wS8 | wU16 | wS16 | wU24 | wS24 | wU32 | wS32
  | wPatch => cases h; rfl

/-! ### Runs -/

@[simp] theorem fedBytes_feed (b : Byte) (is : List Instr) : fedBytes (.feed b :: is) = b :: fedBytes is := rfl

@[simp] theorem fedBytes_setlqt (x : Byte) (is : List Instr) : fedBytes (.setlqt x :: is) = fedBytes is := rfl

@[simp] theorem fedBytes_setrst (y : Byte) (is : List Instr) : fedBytes (.setrst y :: is) = fedBytes is := rfl

@[simp] theorem fedBytes_feeds (bs : List Byte) : fedBytes (feeds bs) = bs := by
  induction bs with
  | nil => rfl
  | cons b bs ih => exact congrArg (b :: ·) ih

/-- Steps with no complete command on the port change nothing. -/
theorem stepN_hold (n : Nat) (s : State) (why : Hold) (hc : s.ctl = none) (h : decodeCommand s.port = .error why) :
    stepN n s = .next s := by
  have hs : step s = .next s := by unfold step fetch; rw [hc]; simp only [h]; rfl
  induction n with
  | zero => rfl
  | succ n ih => rw [stepN, hs]; exact ih

/-- Executing two lists of instructions is executing the one, then the other. -/
theorem execAll_append (is js : List Instr) (s t : State) (h : execAll is s = .next t) :
    execAll (is ++ js) s = execAll js t := by
  induction is generalizing s with
  | nil => cases h; rfl
  | cons i is ih =>
    rw [execAll] at h
    rw [List.cons_append, execAll]
    cases he : exec i s with
    | next u => rw [he] at h; exact ih u h
    | fault r => rw [he] at h; cases h
    | refused r => rw [he] at h; cases h

end Sys2Proof.Machine
end

