-- ==== Sys2Proof/Tests/Slice0.lean ====
section
/-! SUPPORT. The model's own tests: ill-formed terms, words of each encoding, single steps with the expected values of
95_test_vectors.md, and for each statement with hypotheses a witness that meets them. -/

namespace Sys2Proof.Tests

open Sys2Proof.Machine

set_option maxRecDepth 20000

/-! ### Helpers -/

/-- A buffer that begins with the given bytes, zero after them. -/
def buf (n : Nat) (bytes : List Byte) : Vector Byte n := putBytes (Vector.replicate n 0) 0 bytes

/-- The state after reset with another decoder state. -/
def decoding (state : DecState) (idx : Fin 64) (len : Byte) (bytes : List Byte) : State :=
  { State.reset with dec := { state := state, idx := idx, len := len, rxbuf := buf 64 bytes } }

/-- The state after reset with the writer's cursor and overflow flag set. -/
def writing (cursor : Fin 65) (ovf : Bool) : State :=
  { State.reset with wr := { State.reset.wr with cursor := cursor, ovf := ovf } }

/-- The state after reset with the given bytes on the command port. -/
def onPort (bytes : List Byte) : State := { State.reset with port := bytes }

/-- The state after reset with the given pending flags and multiplexer cursor, SETBAT and SETCUS values of
95_test_vectors.md program P4. -/
def withPending (battery custom : Bool) (cursor : Kind) : State :=
  { State.reset with tel :=
      { pending := #v[battery, custom], batVoltage := 0x0102, batCurrent := 0x0304, batCapacity := 0x050607,
        batPercent := 0x08, cusLen := 3, cusData := buf 60 [0xAA, 0xBB, 0xCC], muxCursor := cursor } }

/-- What a next state shows of an observation, `none` for a stop. -/
def seen {α : Type} (f : State → α) : Host.Outcome State Fault Refusal → Option α
  | .next t => some (f t)
  | .fault _ => none
  | .refused _ => none

/-- The last response of a state, as its pair of bytes. -/
def response (t : State) : Option (Byte × Byte) := t.outputs.getLast?.map fun o => (o.response.code.toByte, o.response.value)

/-- The last transmit list of a state. -/
def transmitted (t : State) : Option (List Byte) := t.outputs.getLast?.map fun o => o.transmit

/-- The last event list of a state. -/
def events (t : State) : Option (List Event) := t.outputs.getLast?.map fun o => o.events

/-- The decoder at the CRC byte of frame D-11 of 95_test_vectors.md, an RC frame. -/
def atRcCrc : State := decoding .awaitCrc 25 24 [0xC8, 0x18, 0x16, 0xE0, 0x03]

/-- The decoder at the CRC byte of the first frame of program P3, a link-statistics frame. -/
def atLinkCrc : State :=
  decoding .awaitCrc 13 12 [0xC8, 0x0C, 0x14, 0x64, 0x5A, 0x47, 0xF6, 0x00, 0x03, 0x03, 0x50, 0x5F, 0x05]

/-- The state an instruction leaves, the state before it where it stops. -/
def result (i : Instr) (s : State) : State := (seen id (exec i s)).getD s

/-- The last output an instruction leaves. -/
def output (i : Instr) (s : State) : StepOutput := (result i s).outputs.getLast?.getD ⟨⟨.progress, 0⟩, [], []⟩

/-- An instruction that does not stop leaves its result. -/
theorem exec_result (i : Instr) (s : State) (h : (seen (fun _ => ()) (exec i s)).isSome = true) :
    exec i s = .next (result i s) := by
  unfold result
  cases he : exec i s <;> simp_all [seen]

/-! ### Ill-formed terms are refused (WellFormed) -/

theorem test_setcus_of_256_ill_formed : Instr.wellFormed (.setcus (List.replicate 256 0)) = false := by decide
theorem test_setcus_of_255_well_formed : Instr.wellFormed (.setcus (List.replicate 255 0)) = true := by decide
theorem test_crc_of_256_ill_formed : Instr.wellFormed (.crc (List.replicate 256 0)) = false := by decide
theorem test_crc_of_255_well_formed : Instr.wellFormed (.crc (List.replicate 255 0)) = true := by decide
theorem test_illegal_of_legal_opcode_ill_formed : Instr.wellFormed (.illegal 0x01) = false := by decide
theorem test_illegal_08_ill_formed : Instr.wellFormed (.illegal 0x08) = false := by decide
theorem test_illegal_bounds_well_formed :
    Instr.wellFormed (.illegal 0x00) ∧ Instr.wellFormed (.illegal 0x09) ∧ Instr.wellFormed (.illegal 0xFF) := by decide
theorem test_reserved_of_patch_ill_formed : Instr.wellFormed (.wReserved 0x9) = false := by decide
theorem test_reserved_bounds_well_formed :
    Instr.wellFormed (.wReserved 0xA) ∧ Instr.wellFormed (.wReserved 0xF) := by decide

/-! ### Words written out from the spec (30_encoding.md R81 to R86 and R94 to R96; 95_test_vectors.md 2.2) -/

theorem test_decode_feed : decodeCommand [0b00000001, 0b11001000] = .ok (.feed 0xC8, []) := by decide
theorem test_decode_dreset : decodeCommand [0b00000010, 0x07] = .ok (.dreset, [0x07]) := by decide
theorem test_decode_setlqt : decodeCommand [0b00000011, 0b00110010] = .ok (.setlqt 50, []) := by decide
theorem test_decode_setrst : decodeCommand [0b00000100, 0b10000010] = .ok (.setrst 130, []) := by decide
theorem test_decode_setbat :
    decodeCommand [0b00000101, 0x01, 0x02, 0x03, 0x04, 0x05, 0x06, 0x07, 0x08] =
      .ok (.setbat 0x0102 0x0304 0x050607 0x08, []) := by decide
theorem test_decode_setcus :
    decodeCommand [0b00000110, 0b00000011, 0xAA, 0xBB, 0xCC, 0x07] = .ok (.setcus [0xAA, 0xBB, 0xCC], [0x07]) := by decide
theorem test_decode_poll : decodeCommand [0b00000111] = .ok (.poll, []) := by decide
theorem test_decode_crc : decodeCommand [0b00001000, 0x02, 0x28, 0x8D] = .ok (.crc [0x28, 0x8D], []) := by decide
theorem test_decode_illegal_00 : decodeCommand [0x00] = .ok (.illegal 0x00, []) := by decide
theorem test_decode_illegal_ff : decodeCommand [0xFF, 0x01] = .ok (.illegal 0xFF, [0x01]) := by decide
theorem test_hold_without_opcode : decodeCommand [] = .error .noOpcode := by decide
theorem test_hold_feed_without_operand : decodeCommand [0x01] = .error .noOperand := by decide
theorem test_hold_setbat_short : decodeCommand [0x05, 0x01, 0x02, 0x03, 0x04, 0x05, 0x06, 0x07] = .error .noFields := by decide
theorem test_hold_crc_without_count : decodeCommand [0x08] = .error .noCount := by decide
theorem test_hold_setcus_short : decodeCommand [0x06, 0x02, 0xAA] = .error .noData := by decide

theorem test_decode_w_reset : decodeControl 0x000000000000 = .wReset := by decide
theorem test_decode_w_u8 : decodeControl 0x1000000000C8 = .wU8 0xC8 := by decide
theorem test_decode_w_s8 : decodeControl 0x2000FFFFFFFD = .wS8 0xFFFFFFFD := by decide
theorem test_decode_w_u16 : decodeControl 0x300000000102 = .wU16 0x0102 := by decide
theorem test_decode_w_s16 : decodeControl 0x4000FFFFFFFE = .wS16 0xFFFFFFFE := by decide
theorem test_decode_w_u24 : decodeControl 0x5000000A0B0C = .wU24 0x0A0B0C := by decide
theorem test_decode_w_s24 : decodeControl 0x6000FFFFFF00 = .wS24 0xFFFFFF00 := by decide
theorem test_decode_w_u32 : decodeControl 0x7000DEADBEEF = .wU32 0xDEADBEEF := by decide
theorem test_decode_w_s32 : decodeControl 0x8000FFFFFFFF = .wS32 0xFFFFFFFF := by decide
theorem test_decode_w_patch : decodeControl 0x90400000000A = .wPatch 1 0x0A := by decide
theorem test_decode_w_patch_top : decodeControl 0x9FC000000012 = .wPatch 63 0x12 := by decide
theorem test_decode_w_reserved : decodeControl 0xA00000000000 = .wReserved 0xA := by decide
theorem test_decode_w_reserved_top : decodeControl 0xF00000000000 = .wReserved 0xF := by decide

theorem test_table_word_feed : decodeTableWord 16 0xC801 = some (.feed 0xC8) := by decide
theorem test_table_word_setcus_zeros : decodeTableWord 16 0x0206 = some (.setcus [0, 0]) := by decide
theorem test_table_word_patch : decodeTableWord 48 0x90400000000A = some (.wPatch 1 0x0A) := by decide
theorem test_fetch_word_runs_first :
    seen (fun t => t.lqThr) (step (State.reset.withFetchWord 16 0x3203)) = some 50 := by decide
theorem test_fetch_word_control_runs_first :
    seen (fun t => (t.wr.cursor.val, t.ctl)) (step (State.reset.withFetchWord 48 0x1000000000C8)) = some (1, none) := by
  decide

/-! ### Single steps (95_test_vectors.md section 2) -/

-- FEED: D-11 and D-22 (a link-statistics frame whose payload is all 0xC8)
theorem test_feed_rc_frame :
    seen (fun t => (response t, t.chan.toList.map BitVec.toNat)) (exec (.feed 0xD4) atRcCrc) =
      some (some (0x04, 0x00), 992 :: List.replicate 15 0) := by decide
theorem test_feed_link_frame_turns_failsafe_on :
    seen (fun t => (response t, t.failsafe, (events t).map List.length))
      (exec (.feed 0xC0) (decoding .awaitCrc 13 12 ([0xC8, 0x0C, 0x14] ++ List.replicate 10 0xC8))) =
      some (some (0x05, 0x00), true, some 2) := by decide
-- DRESET: D-21
theorem test_dreset_mid_frame :
    seen (fun t => (t.dec.state, t.dec.idx.val, t.dec.len, response t))
      (exec .dreset (decoding .accumulate 4 24 [0xC8, 0x18, 0x16, 0xE0])) =
      some (.awaitSync, 0, 0, some (0x10, 0x00)) := by decide
-- SETLQT, SETRST: 2.5
theorem test_setlqt_255 :
    seen (fun t => (t.lqThr, t.rssiThr, t.failsafe, response t)) (exec (.setlqt 255) State.reset) =
      some (255, 105, false, some (0x10, 0x00)) := by decide
theorem test_setrst_130 :
    seen (fun t => (t.lqThr, t.rssiThr, t.failsafe, response t)) (exec (.setrst 130) State.reset) =
      some (70, 130, false, some (0x10, 0x00)) := by decide
-- SETBAT, SETCUS, POLL: program P4
theorem test_setbat :
    seen (fun t => (t.tel.batVoltage, t.tel.batCurrent, t.tel.batCapacity, t.tel.batPercent, t.tel.pending.toList))
      (exec (.setbat 0x0102 0x0304 0x050607 0x08) State.reset) =
      some (0x0102, 0x0304, 0x050607, 0x08, [true, false]) := by decide
theorem test_setcus_of_61_rejected :
    seen (fun t => (t.tel.cusLen.val, response t)) (exec (.setcus (List.replicate 61 0x00)) (withPending true true 0)) =
      some (3, some (0x11, 0x00)) := by decide
theorem test_setcus_of_60_accepted :
    seen (fun t => (t.tel.cusLen.val, t.tel.cusData.toList.getLast?, t.tel.pending.toList, response t))
      (exec (.setcus (List.replicate 60 0x3B)) State.reset) =
      some (60, some 0x3B, [false, true], some (0x10, 0x00)) := by decide
theorem test_poll_battery :
    seen (fun t => (response t, transmitted t, t.tel.muxCursor.val)) (exec .poll (withPending true true 0)) =
      some (some (0x21, 0x00),
        some [0xC8, 0x0A, 0x08, 0x01, 0x02, 0x03, 0x04, 0x05, 0x06, 0x07, 0x08, 0x35], 1) := by decide
theorem test_poll_custom :
    seen (fun t => (response t, transmitted t, t.tel.muxCursor.val)) (exec .poll (withPending true true 1)) =
      some (some (0x22, 0x00), some [0xC8, 0x05, 0x7F, 0xAA, 0xBB, 0xCC, 0x38], 0) := by decide
-- CRC: 2.1, the CRC-8/DVB-S2 check value and an empty list
theorem test_crc_check_value :
    seen response (exec (.crc [0x31, 0x32, 0x33, 0x34, 0x35, 0x36, 0x37, 0x38, 0x39]) State.reset) =
      some (some (0x30, 0xBC)) := by decide
theorem test_crc_of_nothing : seen response (exec (.crc []) State.reset) = some (some (0x30, 0x00)) := by decide
-- ILLEGAL: 30_encoding.md R86
theorem test_illegal_responds :
    seen (fun t => (response t, t.outputs.length)) (exec (.illegal 0x09) State.reset) = some (some (0x1F, 0x09), 1) := by
  decide
-- The writer: 2.2
theorem test_w_reset :
    seen (fun t => (t.wr.cursor.val, t.wr.ovf)) (exec .wReset (writing 12 true)) = some (0, false) := by decide
theorem test_w_u8_at_63 :
    seen (fun t => (t.wr.txbuf.toList.getLast?, t.wr.cursor.val, t.wr.ovf)) (exec (.wU8 0x77) (writing 63 false)) =
      some (some 0x77, 64, false) := by decide
theorem test_w_u8_keeps_overflow :
    seen (fun t => (t.wr.txbuf.toList.getD 10 0, t.wr.cursor.val, t.wr.ovf)) (exec (.wU8 0x55) (writing 10 true)) =
      some (0x55, 11, true) := by decide
theorem test_w_s8_minus_3 :
    seen (fun t => (t.wr.txbuf.toList.getD 5 0, t.wr.cursor.val)) (exec (.wS8 (signedWdata (-3))) (writing 5 false)) =
      some (0xFD, 6) := by decide
theorem test_w_u16 :
    seen (fun t => ((t.wr.txbuf.toList.drop 3).take 2, t.wr.cursor.val)) (exec (.wU16 0x0102) (writing 3 false)) =
      some ([0x01, 0x02], 5) := by decide
theorem test_w_u16_at_63_overflows :
    seen (fun t => (t.wr.txbuf.toList.getLast?, t.wr.cursor.val, t.wr.ovf)) (exec (.wU16 0x1234) (writing 63 false)) =
      some (some 0x00, 63, true) := by decide
theorem test_w_s16_least :
    seen (fun t => t.wr.txbuf.toList.take 2) (exec (.wS16 (signedWdata (-32768))) (writing 0 false)) =
      some [0x80, 0x00] := by decide
theorem test_w_u24 :
    seen (fun t => t.wr.txbuf.toList.take 3) (exec (.wU24 0x0A0B0C) (writing 0 false)) = some [0x0A, 0x0B, 0x0C] := by
  decide
theorem test_w_s24_minus_256 :
    seen (fun t => t.wr.txbuf.toList.take 3) (exec (.wS24 (signedWdata (-256))) (writing 0 false)) =
      some [0xFF, 0xFF, 0x00] := by decide
theorem test_w_u32_at_60 :
    seen (fun t => (t.wr.txbuf.toList.drop 60, t.wr.cursor.val, t.wr.ovf)) (exec (.wU32 0x01020304) (writing 60 false)) =
      some ([0x01, 0x02, 0x03, 0x04], 64, false) := by decide
theorem test_w_s32_least :
    seen (fun t => t.wr.txbuf.toList.take 4) (exec (.wS32 (signedWdata (-2147483648))) (writing 0 false)) =
      some [0x80, 0x00, 0x00, 0x00] := by decide
theorem test_w_patch_below_cursor :
    seen (fun t => (t.wr.txbuf.toList.take 2, t.wr.cursor.val, t.wr.ovf)) (exec (.wPatch 1 0x0A) (writing 11 false)) =
      some ([0x00, 0x0A], 11, false) := by decide
theorem test_w_patch_at_cursor :
    seen (fun t => (t.wr.cursor.val, t.wr.ovf)) (exec (.wPatch 11 0x0A) (writing 11 false)) = some (11, true) := by decide
theorem test_w_reserved_refused : exec (.wReserved 0xA) State.reset = .refused (.reservedWriterOp 0xA) := rfl
-- 2.4
theorem test_pack_rc_1811 :
    packRc (Vector.replicate 16 1811) =
      [0x13, 0x9F, 0xF8, 0xC4, 0x27, 0x3E, 0xF1, 0x89, 0x4F, 0x7C, 0xE2,
        0x13, 0x9F, 0xF8, 0xC4, 0x27, 0x3E, 0xF1, 0x89, 0x4F, 0x7C, 0xE2] := by decide
theorem test_unpack_rc_channel_15 : (unpackRc (List.replicate 20 0x00 ++ [0xE0, 0xFF])).toList = List.replicate 15 0 ++ [2047] := by
  decide
theorem test_link_record_antenna_1 :
    (fun ls : LinkStats => (ls.rssi.toNat, ls.txpwrMw.toNat, ls.snrValue, ls.dlSnrValue))
      (unpackLs Config.antSelectPolarity Config.txpwrMw [0x32, 0x78, 0x63, 0x0A, 0x01, 0x03, 0x09, 0x50, 0x5F, 0xFB]) =
      (120, 0, 10, -5) := by decide
-- The text of a program: 30_encoding.md R97
theorem test_assemble_text :
    assembleText "FEED 0xC8 ; sync\nSETCUS [170, 0xBB]\n\nPOLL".toList =
      some [0x01, 0xC8, 0x06, 0x02, 0xAA, 0xBB, 0x07] := by decide
theorem test_assemble_error : assembleText "SETLQT 256".toList = none := by decide

/-! ### Witnesses: for each statement with hypotheses, a state and operands that meet all of them -/

/-- A reply with value 0, no event and no transmit byte. -/
def plain (code : RespCode) : StepOutput := ⟨⟨code, 0⟩, [], []⟩

theorem witness_StepKeepsTheInvariant :
    (onPort [0x01, 0xC8]).Inv ∧ ∃ t, step (onPort [0x01, 0xC8]) = .next t ∧ t.dec.state = .awaitLength :=
  ⟨by decide, _, rfl, rfl⟩

theorem witness_NoErrorStopsTheEngine :
    (onPort [0x01, 0x55]).Inv ∧ ∃ t, step (onPort [0x01, 0x55]) = .next t ∧
      t.outputs = (onPort [0x01, 0x55]).outputs ++ [plain .syncDiscard] :=
  ⟨by decide, _, rfl, rfl⟩

theorem witness_StepRunsTheFetchedInstruction_command :
    (onPort [0x03, 0x32, 0x07]).ctl = none ∧
      decodeCommand (onPort [0x03, 0x32, 0x07]).port = .ok (.setlqt 50, [0x07]) := by decide
theorem witness_StepRunsTheFetchedInstruction_control :
    ({ onPort [0x07] with ctl := some 0x1000000000C8 } : State).ctl = some 0x1000000000C8 := rfl
theorem witness_StepRunsTheFetchedInstruction_hold :
    (onPort [0x03]).ctl = none ∧ decodeCommand (onPort [0x03]).port = .error .noOperand := by decide

theorem witness_HeldCommandRunsOnceComplete :
    (onPort [0x06, 0x02, 0xAA]).ctl = none ∧ decodeCommand (onPort [0x06, 0x02, 0xAA]).port = .error .noData ∧
      decodeCommand ((onPort [0x06, 0x02, 0xAA]).port ++ [0xBB, 0x07]) = .ok (.setcus [0xAA, 0xBB], [0x07]) := by decide

theorem witness_StreamRunsItsCommandsInOrder :
    (∀ i ∈ [Instr.feed 0xC8, .illegal 0x09, .poll], i.wellFormed = true ∧ i.isCommand = true) ∧
      (onPort [0x01, 0xC8, 0x09, 0x07, 0x05]).ctl = none ∧
      (onPort [0x01, 0xC8, 0x09, 0x07, 0x05]).port = commandsBytes [.feed 0xC8, .illegal 0x09, .poll] ++ [0x05] ∧
      decodeCommand [0x05] = .error .noFields := by decide

theorem witness_AnyStreamRunsToItsEnd : State.reset.Inv := by decide

theorem witness_DecodeOfEncodeIsTheInstruction :
    Instr.wellFormed (.setcus (List.replicate 255 0xFF)) = true ∧ Instr.wellFormed (.wPatch 63 0xFFFFFFFF) = true ∧
      Instr.wellFormed (.illegal 0xFF) = true ∧ Instr.wellFormed (.wReserved 0xF) = true := by decide

theorem witness_DecodedBytesAreTheEncoding :
    decodeCommand [0x08, 0x01, 0x16, 0x07] = .ok (.crc [0x16], [0x07]) := by decide

theorem witness_CommandLengthIsDecidedByTwoBytes_whole :
    commandLength 0x06 (([0x02, 0xAA, 0xBB] : List Byte).getD 0 0) ≤ ([0x02, 0xAA, 0xBB] : List Byte).length + 1 := by decide
theorem witness_CommandLengthIsDecidedByTwoBytes_short :
    ([0x02, 0xAA] : List Byte).length + 1 < commandLength 0x06 (([0x02, 0xAA] : List Byte).getD 0 0) := by decide

theorem witness_IllegalOpcodesOnlyRespond_zero : (0x00 : Byte) = 0x00 ∨ 9 ≤ (0x00 : Byte).toNat := by decide
theorem witness_IllegalOpcodesOnlyRespond_nine : (0x09 : Byte) = 0x00 ∨ 9 ≤ (0x09 : Byte).toNat := by decide

theorem witness_ReservedMicroOpsAreRefused_code : 10 ≤ (0xA : BitVec 4).toNat := by decide
theorem witness_ReservedMicroOpsAreRefused_step :
    (onPort [0x07]).ctl = none ∧ ∃ t, step (onPort [0x07]) = .next t := ⟨rfl, _, rfl⟩

theorem witness_ReservedMicroOpsAreRefused_encoder :
    .wU8 0x7F ∈ frameOps (withPending true true 1).tel 1 ∧ .wU24 0x050607 ∈ frameOps (withPending true true 0).tel 0 := by
  decide

theorem witness_EveryCommandProducesOneOutput :
    Instr.isCommand .poll = true ∧ ∃ t, exec .poll (withPending true false 1) = .next t := ⟨rfl, _, rfl⟩

theorem witness_EventsComeOnlyFromFrames_rc :
    ∃ t o, exec (.feed 0xD4) atRcCrc = .next t ∧ t.outputs = atRcCrc.outputs ++ [o] ∧ o.response.code = .frameRc :=
  ⟨result (.feed 0xD4) atRcCrc, output (.feed 0xD4) atRcCrc, exec_result _ _ (by decide), by decide, by decide⟩
theorem witness_EventsComeOnlyFromFrames_link :
    ∃ t o, exec (.feed 0xCE) atLinkCrc = .next t ∧ t.outputs = atLinkCrc.outputs ++ [o] ∧ o.response.code = .frameLink :=
  ⟨result (.feed 0xCE) atLinkCrc, output (.feed 0xCE) atLinkCrc, exec_result _ _ (by decide), by decide, by decide⟩
theorem witness_EventsComeOnlyFromFrames_other :
    ∃ t, exec .dreset State.reset = .next t ∧ t.outputs = State.reset.outputs ++ [plain .ack] := ⟨_, rfl, rfl⟩

theorem witness_ResponsesFollowTheCodeTable :
    ∃ t o, exec (.setcus []) State.reset = .next t ∧ t.outputs = State.reset.outputs ++ [o] :=
  ⟨_, plain .ack, rfl, rfl⟩

theorem witness_OnlyAPollTransmits_frame :
    ∃ t o, exec .poll (withPending true true 1) = .next t ∧ t.outputs = (withPending true true 1).outputs ++ [o] ∧
      o.transmit ≠ [] :=
  ⟨result .poll (withPending true true 1), output .poll (withPending true true 1), exec_result _ _ (by decide), by decide,
    by decide⟩
theorem witness_OnlyAPollTransmits_none :
    ∃ t o, exec .poll State.reset = .next t ∧ t.outputs = State.reset.outputs ++ [o] ∧ o.transmit = [] :=
  ⟨_, plain .pollNone, rfl, rfl, rfl⟩

theorem witness_CrcCommandRespondsWithTheCrc : ([] : List Byte) = [] ∧ ([0x01] : List Byte) = [0x01] := by decide

theorem witness_Crc8ResidueAndLinearity : ([0x16, 0xE0] : List Byte).length = ([0x14, 0x03] : List Byte).length := by decide

-- The clauses of AppendsBytes, at the capacity's edge; both are met by each width N at cursors 64 - N and 65 - N.
theorem witness_UnsignedAppendsWriteBigEndian_fits :
    (writing 60 false).wr.cursor.val + (bigEndian 4 0x01020304).length ≤ 64 := by decide
theorem witness_UnsignedAppendsWriteBigEndian_overflows :
    64 < (writing 63 false).wr.cursor.val + (bigEndian 2 0x1234).length := by decide
theorem witness_SignedAppendsWriteTwosComplement :
    ((-2 ^ 7 ≤ (-128 : Int) ∧ (-128 : Int) < 2 ^ 7) ∧ -2 ^ 15 ≤ (32767 : Int) ∧ (32767 : Int) < 2 ^ 15) ∧
      (-2 ^ 23 ≤ (-8388608 : Int) ∧ (-8388608 : Int) < 2 ^ 23) ∧
      -2 ^ 31 ≤ (2147483647 : Int) ∧ (2147483647 : Int) < 2 ^ 31 := by decide
theorem witness_PatchOverwritesOneWrittenByte_below : (10 : BitVec 6).toNat < (writing 11 false).wr.cursor.val := by decide
theorem witness_PatchOverwritesOneWrittenByte_at : (writing 11 false).wr.cursor.val ≤ (11 : BitVec 6).toNat := by decide

theorem witness_FeedAnswersOneOutcome : atRcCrc.dec.Inv ∧ atLinkCrc.dec.Inv := by decide

theorem witness_FeedInAwaitSync :
    State.reset.dec.state = .awaitSync ∧ ((0xEE : Byte) = 0xC8 ∨ (0xEE : Byte) = 0xEE) ∧
      (0xEF : Byte) ≠ 0xC8 ∧ (0xEF : Byte) ≠ 0xEE := by decide

/-- The decoder after a sync byte. -/
def atLength : State := decoding .awaitLength 1 0 [0xC8]

theorem witness_FeedInAwaitLength_taken :
    atLength.dec.state = .awaitLength ∧ (2 ≤ (0x02 : Byte).toNat ∧ (0x02 : Byte).toNat ≤ 62) ∧
      2 ≤ (0x3E : Byte).toNat ∧ (0x3E : Byte).toNat ≤ 62 := by decide
theorem witness_FeedInAwaitLength_rejected :
    atLength.dec.state = .awaitLength ∧ ((0x01 : Byte).toNat < 2 ∨ 62 < (0x01 : Byte).toNat) ∧
      ((0x3F : Byte).toNat < 2 ∨ 62 < (0x3F : Byte).toNat) := by decide
-- D-4 to D-7, the same boundary values run
theorem witness_FeedInAwaitLength_runs :
    seen (fun t => (t.dec.state, response t)) (exec (.feed 0x02) atLength) = some (.accumulate, some (0x00, 0x00)) ∧
      seen (fun t => (t.dec.state, response t)) (exec (.feed 0x01) atLength) = some (.awaitSync, some (0x02, 0x00)) := by
  decide

theorem witness_FeedInAccumulate :
    (decoding .accumulate 2 2 [0xC8, 0x02]).dec.Inv ∧ (decoding .accumulate 2 2 [0xC8, 0x02]).dec.state = .accumulate ∧
      (decoding .accumulate 62 62 [0xC8, 0x3E]).dec.Inv := by decide

theorem witness_FeedInAwaitCrc_mismatch :
    atRcCrc.dec.Inv ∧ atRcCrc.dec.state = .awaitCrc ∧
      (0x2B : Byte) ≠ crc8 (slice atRcCrc.dec.rxbuf 2 atRcCrc.dec.len.toNat) := by decide
-- D-9
theorem witness_FeedInAwaitCrc_ignored :
    (decoding .awaitCrc 3 2 [0xC8, 0x02, 0x28]).dec.Inv ∧
      (0x8D : Byte) = crc8 (slice (decoding .awaitCrc 3 2 [0xC8, 0x02, 0x28]).dec.rxbuf 2 2) ∧
      (decoding .awaitCrc 3 2 [0xC8, 0x02, 0x28]).dec.rxbuf[2] ≠ 0x16 ∧
      (decoding .awaitCrc 3 2 [0xC8, 0x02, 0x28]).dec.rxbuf[2] ≠ 0x14 := by decide
-- D-16, D-17
theorem witness_FeedInAwaitCrc_size :
    ((decoding .awaitCrc 24 23 [0xC8, 0x17, 0x16]).dec.Inv ∧
      (0x80 : Byte) = crc8 (slice (decoding .awaitCrc 24 23 [0xC8, 0x17, 0x16]).dec.rxbuf 2 23) ∧
      (decoding .awaitCrc 24 23 [0xC8, 0x17, 0x16]).dec.rxbuf[2] = 0x16 ∧ 23 - 2 ≠ 22) ∧
    ((decoding .awaitCrc 14 13 [0xC8, 0x0D, 0x14]).dec.Inv ∧
      (0xA0 : Byte) = crc8 (slice (decoding .awaitCrc 14 13 [0xC8, 0x0D, 0x14]).dec.rxbuf 2 13) ∧
      (decoding .awaitCrc 14 13 [0xC8, 0x0D, 0x14]).dec.rxbuf[2] = 0x14 ∧ 13 - 2 ≠ 10) := by decide

theorem witness_RcFrameStoresTheChannels :
    atRcCrc.dec.Inv ∧ atRcCrc.dec.state = .awaitCrc ∧ atRcCrc.dec.len = 24 ∧ atRcCrc.dec.rxbuf[2] = 0x16 ∧
      (0xD4 : Byte) = crc8 (slice atRcCrc.dec.rxbuf 2 24) := by decide

theorem witness_LinkFrameReportsAndDecidesFailsafe :
    atLinkCrc.dec.Inv ∧ atLinkCrc.dec.state = .awaitCrc ∧ atLinkCrc.dec.len = 12 ∧ atLinkCrc.dec.rxbuf[2] = 0x14 ∧
      (0xCE : Byte) = crc8 (slice atLinkCrc.dec.rxbuf 2 12) := by decide

theorem witness_LinkRecordTakesTheTenBytes :
    ∃ t o, atLinkCrc.dec.Inv ∧ atLinkCrc.dec.state = .awaitCrc ∧ exec (.feed 0xCE) atLinkCrc = .next t ∧
      t.outputs = atLinkCrc.outputs ++ [o] ∧ .link ⟨100, 90, 71, 0xF6, 0, 3, 3, 80, 95, 5, 100, 100⟩ ∈ o.events :=
  ⟨result (.feed 0xCE) atLinkCrc, output (.feed 0xCE) atLinkCrc, by decide, by decide, exec_result _ _ (by decide),
    by decide, by decide⟩

theorem witness_SnrFieldsAreTwosComplement :
    ([0x64, 0x5A, 0x47, 0xF6, 0x00, 0x03, 0x03, 0x50, 0x5F, 0x05] : List Byte).length = 10 := by decide

theorem witness_OnlyProgressLeavesAwaitSync :
    ∃ t o, atRcCrc.dec.Inv ∧ exec (.feed 0x2B) atRcCrc = .next t ∧ t.outputs = atRcCrc.outputs ++ [o] ∧
      o.response.code ≠ .progress :=
  ⟨result (.feed 0x2B) atRcCrc, output (.feed 0x2B) atRcCrc, by decide, exec_result _ _ (by decide), by decide, by decide⟩

theorem witness_FedBytesAreCollected :
    State.reset.AtSync ∧ ((0xC8 : Byte) = 0xC8 ∨ (0xC8 : Byte) = 0xEE) ∧
      (2 ≤ 2 ∧ 2 ≤ 62 ∧ ([0x28] : List Byte).length + 1 ≤ 2) ∧
      2 ≤ 62 ∧ 62 ≤ 62 ∧ ([] : List Byte).length + 1 ≤ 62 := by decide

theorem witness_ValidFrameIsDispatched :
    State.reset.AtSync ∧ ((0xEE : Byte) = 0xC8 ∨ (0xEE : Byte) = 0xEE) ∧ (List.replicate 60 (0x3B : Byte)).length ≤ 60 ∧
      ([] : List Byte).length ≤ 60 := by decide

theorem witness_RcFrameDeliversItsChannels :
    State.reset.AtSync ∧ ((0xC8 : Byte) = 0xC8 ∨ (0xC8 : Byte) = 0xEE) := by decide

theorem witness_CorruptFrameDeliversNothing :
    State.reset.AtSync ∧ ((0xC8 : Byte) = 0xC8 ∨ (0xC8 : Byte) = 0xEE) ∧ (List.replicate 22 (0x00 : Byte)).length ≤ 60 ∧
      (0xEE : Byte) ≠ crc8 (0x16 :: List.replicate 22 0x00) := by decide

theorem witness_TelemetryFramesRoundTrip :
    ∃ t o, exec .poll (withPending true false 0) = .next t ∧ t.outputs = (withPending true false 0).outputs ++ [o] ∧
      o.transmit ≠ [] ∧ State.reset.AtSync :=
  ⟨result .poll (withPending true false 0), output .poll (withPending true false 0), exec_result _ _ (by decide), by decide,
    by decide, by decide⟩

theorem witness_CodecsRoundTrip : (List.replicate 22 (0xFF : Byte)).length = 22 := by decide

theorem witness_ChannelsFollowTheByteFormulas : (List.replicate 20 (0x00 : Byte) ++ [0xE0, 0xFF]).length = 22 := by decide

theorem witness_FailsafeIsEdgeTriggered :
    ∃ t o ls, exec (.feed 0xC0) (decoding .awaitCrc 13 12 ([0xC8, 0x0C, 0x14] ++ List.replicate 10 0xC8)) = .next t ∧
      t.outputs = State.reset.outputs ++ [o] ∧ .link ls ∈ o.events ∧ t.failsafe = true :=
  ⟨result (.feed 0xC0) (decoding .awaitCrc 13 12 ([0xC8, 0x0C, 0x14] ++ List.replicate 10 0xC8)),
    output (.feed 0xC0) (decoding .awaitCrc 13 12 ([0xC8, 0x0C, 0x14] ++ List.replicate 10 0xC8)),
    ⟨200, 200, 200, 200, 200, 200, 200, 200, 200, 200, 200, 0⟩, exec_result _ _ (by decide), by decide, by decide, by decide⟩

/-- Another engine at the CRC byte of the same link-statistics frame, with other channels and another failsafe state. -/
def atLinkCrc' : State := { atLinkCrc with chan := Vector.replicate 16 992, failsafe := true }

theorem witness_FailsafeIgnoresTheRest_link :
    ∃ t t' o o' ls ls', exec (.feed 0xCE) atLinkCrc = .next t ∧ exec (.feed 0xCE) atLinkCrc' = .next t' ∧
      t.outputs = atLinkCrc.outputs ++ [o] ∧ t'.outputs = atLinkCrc'.outputs ++ [o'] ∧
      o.events = .link ls :: [] ∧ o'.events = .link ls' :: [.failsafe false] ∧ ls.lq = ls'.lq ∧ ls.rssi = ls'.rssi ∧
      atLinkCrc.lqThr = atLinkCrc'.lqThr ∧ atLinkCrc.rssiThr = atLinkCrc'.rssiThr :=
  ⟨result (.feed 0xCE) atLinkCrc, result (.feed 0xCE) atLinkCrc', output (.feed 0xCE) atLinkCrc,
    output (.feed 0xCE) atLinkCrc', ⟨100, 90, 71, 0xF6, 0, 3, 3, 80, 95, 5, 100, 100⟩,
    ⟨100, 90, 71, 0xF6, 0, 3, 3, 80, 95, 5, 100, 100⟩, exec_result _ _ (by decide), exec_result _ _ (by decide), by decide,
    by decide, by decide, by decide, rfl, rfl, rfl, rfl⟩
theorem witness_FailsafeIgnoresTheRest_other :
    ∃ t o, exec (.feed 0xD4) atRcCrc = .next t ∧ t.outputs = atRcCrc.outputs ++ [o] ∧ o.response.code ≠ .frameLink :=
  ⟨result (.feed 0xD4) atRcCrc, output (.feed 0xD4) atRcCrc, exec_result _ _ (by decide), by decide, by decide⟩

/-- The first frame of program P3 without its CRC byte, a SETLQT after its sync byte, a SETRST inside its payload and another
just before its CRC byte. -/
def midFrame : List Instr :=
  feeds [0xC8] ++ [.setlqt 255] ++ feeds [0x0C, 0x14, 0x64, 0x5A, 0x47] ++ [.setrst 0] ++
    feeds [0xF6, 0x00, 0x03, 0x03, 0x50, 0x5F, 0x05] ++ [.setrst 130]

theorem witness_ThresholdSetMidFrameApplies :
    State.reset.AtSync ∧ ((0xC8 : Byte) = 0xC8 ∨ (0xC8 : Byte) = 0xEE) ∧
      (∀ i ∈ midFrame, (∃ b, i = .feed b) ∨ (∃ x, i = .setlqt x) ∨ ∃ y, i = .setrst y) ∧
      fedBytes midFrame =
        (frameBytes 0xC8 0x14 (packLs ⟨100, 90, 71, 0xF6, 0, 3, 3, 80, 95, 5, 100, 100⟩)).dropLast ∧
      lqThrAfter midFrame 70 = 255 ∧ rssiThrAfter midFrame 105 = 130 :=
  ⟨by decide, by decide, by simp [midFrame, feeds], by decide, by decide, by decide⟩

theorem witness_SetcusStoresOrRejects :
    (List.replicate 60 (0x00 : Byte)).length ≤ 60 ∧ 60 < (List.replicate 61 (0x00 : Byte)).length := by decide

theorem witness_PollServesTheNextPendingKind_none : ∀ k : Kind, State.reset.tel.pending[k] = false := by decide
theorem witness_PollServesTheNextPendingKind_serves :
    (withPending true true 0).tel.Serves 0 ∧ (withPending true true 1).tel.Serves 1 ∧
      (withPending true false 1).tel.Serves 0 ∧ (withPending false true 0).tel.Serves 1 := by decide
theorem witness_PollServesTheNextPendingKind_pending : ∃ k : Kind, (withPending false true 0).tel.pending[k] = true := by decide

theorem witness_PollTransmitsTheWholeFrame : (withPending true true 0).tel.Serves 0 ∧ (withPending true true 1).tel.Serves 1 := by
  decide

theorem witness_PendingKindsAlternate_both : ∀ k : Kind, (withPending true true 1).tel.pending[k] = true := by decide
theorem witness_PendingKindsAlternate_one :
    ((withPending true false 1).tel.pending[(0 : Kind)] = true ∧ (withPending true false 1).tel.pending[(0 : Kind) + 1] = false) ∧
      (withPending false true 1).tel.pending[(1 : Kind)] = true ∧
      (withPending false true 1).tel.pending[(1 : Kind) + 1] = false := by decide

theorem witness_PendingFlagsAreSticky : ∃ t, exec (.setbat 1 2 3 4) State.reset = .next t := ⟨_, rfl⟩

theorem witness_DecoderAndMultiplexerAreSeparate_decoder :
    ∃ t, atRcCrc.dec = ({ atRcCrc with tel := (withPending true true 0).tel } : State).dec ∧
      exec (.feed 0xD4) atRcCrc = .next t ∧ t.chan ≠ atRcCrc.chan :=
  ⟨result (.feed 0xD4) atRcCrc, rfl, exec_result _ _ (by decide), by decide⟩
theorem witness_DecoderAndMultiplexerAreSeparate_multiplexer :
    ∃ t, (withPending true true 0).tel = ({ atRcCrc with tel := (withPending true true 0).tel } : State).tel ∧
      (withPending true true 0).wr = ({ atRcCrc with tel := (withPending true true 0).tel } : State).wr ∧
      exec .poll (withPending true true 0) = .next t :=
  ⟨result .poll (withPending true true 0), rfl, rfl, exec_result _ _ (by decide)⟩

theorem witness_ElementsHaveTheirOwnWriters_pending :
    ∃ t, exec (.setcus [0xAA]) State.reset = .next t ∧ t.tel.pending ≠ State.reset.tel.pending := ⟨_, rfl, by decide⟩
theorem witness_ElementsHaveTheirOwnWriters :
    ∃ t, exec (.setlqt 50) State.reset = .next t ∧ t.lqThr ≠ State.reset.lqThr := ⟨_, rfl, by decide⟩

theorem witness_EnginesAreIndependent :
    ∃ bank', stepAt 1 [State.reset, onPort [0x03, 0x32]] = .next bank' ∧
      [State.reset, onPort [0x03, 0x32]][1]? = some (onPort [0x03, 0x32]) := ⟨_, rfl, rfl⟩

theorem witness_AssembledCommandLines :
    255 < 256 ∧ 256 ≤ 256 ∧ ((∀ n ∈ [0, 255], n < 256) ∧ [0, 255].length ≤ 255) ∧ (∃ n ∈ [0, 256], 256 ≤ n) ∧
      255 < (List.replicate 256 0).length := by decide

theorem witness_PseudoInstructionsExpand :
    (List.replicate 60 (0x00 : Byte)).length ≤ 60 ∧ 60 < (List.replicate 61 (0x00 : Byte)).length ∧
      ((∃ c ∈ [2047, 2048], 2047 < c) ∨ [2047, 2048].length ≠ 16) ∧ (List.replicate 10 (0x00 : Byte)).length = 10 ∧
      [0, 1].length ≠ 10 := by decide

end Sys2Proof.Tests
end

/-! ## The pending flags (10_state.md R30) -/

section
namespace Sys2Proof.Machine

/-- The kind whose pending flag an instruction sets: its setter's, where the setter is accepted (45_telemetry_mux.md
R226, R227). -/
def markedKind : Instr → Option Kind
  | .setbat _ _ _ _ => some 0
  | .setcus data => if data.length ≤ 60 then some 1 else none
  | _ => none

theorem markedKind_eq_battery_iff (i : Instr) : markedKind i = some 0 ↔ ∃ v c k p, i = .setbat v c k p := by
  cases i <;> simp [markedKind]

theorem markedKind_eq_custom_iff (i : Instr) : markedKind i = some 1 ↔ ∃ d, i = .setcus d ∧ d.length ≤ 60 := by
  cases i <;> simp [markedKind]

/-- What an instruction does to the pending flags: at most one of them changes, to true. -/
theorem exec_pending (i : Instr) (s t : State) (h : exec i s = .next t) :
    t.tel.pending = (markedKind i).elim s.tel.pending fun k => s.tel.pending.set k true := by
  cases i with
  | feed b =>
    obtain ⟨o, ht, -⟩ := execFeed_next b s t h
    rw [ht]
    rfl
  | poll =>
    cases hk : s.tel.nextKind with
    | none => rw [show exec .poll s = _ from execPoll_none s hk] at h; cases h; rfl
    | some k => rw [show exec .poll s = _ from execPoll_some s k hk] at h; cases h; rfl
  | setcus data =>
    simp only [exec, execSetcus] at h
    split at h
    case isTrue hlen => cases h; simp [markedKind, Nat.le_of_lt_succ hlen]
    case isFalse hlen => cases h; simp [markedKind, show ¬data.length ≤ 60 by omega]
  | wReserved wop => cases h
  | setbat | dreset | setlqt | setrst | crc | illegal | wReset | wU8 | wS8 | wU16 | wS16 | wU24 | wS24 | wU32 | wS32
  | wPatch => cases h; rfl

/-- A pending flag is true after an instruction exactly if it was true before, or the instruction sets it. -/
theorem exec_pending_iff (i : Instr) (s t : State) (k : Kind) (h : exec i s = .next t) :
    t.tel.pending[k] = true ↔ s.tel.pending[k] = true ∨ markedKind i = some k := by
  rw [exec_pending i s t h]
  cases markedKind i with
  | none => simp
  | some j =>
    by_cases hjk : j = k
    · simp [hjk]
    · simp [hjk, Fin.val_inj]

end Sys2Proof.Machine

open Sys2Proof Sys2Proof.Machine in
/-- Settles O55: each flag's new value is its old value, or true where the instruction is its accepted setter. -/
theorem pendingFlagsAreSticky : Obligations.PendingFlagsAreSticky := by
  refine ⟨by decide, fun i s t h => ⟨?_, ?_⟩⟩
  · rw [exec_pending_iff i s t 0 h, markedKind_eq_battery_iff]
  · rw [exec_pending_iff i s t 1 h, markedKind_eq_custom_iff]
end

/-! ## The decoder's part and the multiplexer's part (20_memory.md R62) -/

section
namespace Sys2Proof.Machine

/-! ### The two parts -/

/-- `m` with the elements the decoder's commands write taken from `t`. -/
def State.withDecoderOf (m t : State) : State := { m with dec := t.dec, chan := t.chan, failsafe := t.failsafe }

/-- `m` with the elements the decoder's commands read taken from `s`: those they write, and the thresholds. -/
def State.withDecoderInputsOf (m s : State) : State :=
  { m.withDecoderOf s with lqThr := s.lqThr, rssiThr := s.rssiThr }

/-- `m` with the elements the multiplexer's commands read and write taken from `s`. -/
def State.withMuxOf (m s : State) : State := { m with tel := s.tel, wr := s.wr }

@[simp] theorem State.withDecoderInputsOf_dec (m s : State) : (m.withDecoderInputsOf s).dec = s.dec := rfl

/-- Taking over a part that is the state's own already changes nothing. -/
theorem State.withDecoderInputsOf_of_agree (s s' : State) (hd : s.dec = s'.dec) (hc : s.chan = s'.chan)
    (hf : s.failsafe = s'.failsafe) (hl : s.lqThr = s'.lqThr) (hr : s.rssiThr = s'.rssiThr) :
    s'.withDecoderInputsOf s = s' := by
  rw [withDecoderInputsOf, withDecoderOf, hd, hc, hf, hl, hr]

theorem State.withMuxOf_of_agree (s s' : State) (ht : s.tel = s'.tel) (hw : s.wr = s'.wr) : s'.withMuxOf s = s' := by
  rw [withMuxOf, ht, hw]

/-! ### Commands confined to a part -/

/-- A meaning reads only the part that `reads m s` carries over from `s` to `m`, writes only the part that `writes`
carries over, and adds one output, the same whatever the other elements hold. -/
def Confined (reads writes : State → State → State) (f : State → Host.Outcome State Fault Refusal) : Prop :=
  ∀ s t, f s = .next t → ∃ o, ∀ m, f (reads m s) = .next (writes ((reads m s).respond o) t)

/-- A confined meaning from two states that agree on the part it reads. -/
theorem Confined.of_agree {reads writes : State → State → State} {f : State → Host.Outcome State Fault Refusal}
    (hf : Confined reads writes f) {s s' t : State} (hs : reads s s = s) (hs' : reads s' s = s') (h : f s = .next t) :
    ∃ o, t = writes (s.respond o) t ∧ f s' = .next (writes (s'.respond o) t) := by
  obtain ⟨o, ho⟩ := hf s t h
  have hself := ho s
  have hother := ho s'
  rw [hs, h] at hself
  rw [hs'] at hother
  exact ⟨o, Host.Outcome.next.inj hself, hother⟩

/-- A dispatch reads and writes the decoder's part only. -/
theorem dispatch_confined (len : Nat) (s : State) : ∃ o, ∀ m : State,
    dispatch len (m.withDecoderInputsOf s) = ((m.withDecoderInputsOf s).respond o).withDecoderOf (dispatch len s) := by
  by_cases hrc : s.dec.rxbuf[2] = Config.typeRc
  · by_cases hlen : len - 2 = Config.rcPayload <;>
      simp only [dispatch, State.withDecoderInputsOf_dec, hrc, hlen, if_true, if_false]
    · exact ⟨⟨⟨.frameRc, 0⟩, [.rc (rcDispatch s).chan], []⟩, fun m => rfl⟩
    · exact ⟨reply .frameSizeMismatch, fun m => rfl⟩
  · by_cases hls : s.dec.rxbuf[2] = Config.typeLs
    · by_cases hlen : len - 2 = Config.lsPayload <;>
        simp only [dispatch, State.withDecoderInputsOf_dec, hls, hlen, if_true, if_false]
      · exact ⟨⟨⟨.frameLink, 0⟩, .link (unpackLs Config.antSelectPolarity Config.txpwrMw (slice s.dec.rxbuf 3 12)) ::
          failsafeEvents s.failsafe (linkDispatch s).failsafe, []⟩, fun m => rfl⟩
      · exact ⟨reply .frameSizeMismatch, fun m => rfl⟩
    · simp only [dispatch, State.withDecoderInputsOf_dec, hrc, hls, if_false]
      exact ⟨reply .frameIgnored, fun m => rfl⟩

/-- FEED reads and writes the decoder's part only. -/
theorem execFeed_confined (b : Byte) : Confined .withDecoderInputsOf .withDecoderOf (execFeed b) := by
  intro s t h
  cases hst : s.dec.state <;> simp only [execFeed, State.withDecoderInputsOf_dec, hst] at h ⊢
  case awaitSync =>
    by_cases hb : b = Config.syncA ∨ b = Config.syncB <;>
      simp only [feedSync, hb, if_true, if_false] at h ⊢ <;> cases h
    · exact ⟨reply .progress, fun m => rfl⟩
    · exact ⟨reply .syncDiscard, fun m => rfl⟩
  case awaitLength =>
    by_cases hb : Config.lenMin ≤ b.toNat ∧ b.toNat ≤ Config.lenMax <;>
      simp only [feedLength, hb, and_self, if_true, if_false] at h ⊢ <;> cases h
    · exact ⟨reply .progress, fun m => rfl⟩
    · exact ⟨reply .lengthReject, fun m => rfl⟩
  case accumulate =>
    by_cases hidx : s.dec.idx.val + 1 < 64
    · rw [feedAccumulate, dif_pos hidx] at h
      cases h
      exact ⟨reply .progress, fun m => dif_pos hidx⟩
    · rw [feedAccumulate, dif_neg hidx] at h
      cases h
  case awaitCrc =>
    by_cases hlen : s.dec.len.toNat < 64
    · rw [feedCrc_eq b s hlen] at h
      have heq (m : State) := feedCrc_eq b (m.withDecoderInputsOf s) hlen
      by_cases hcrc : crc8 (slice (s.dec.rxbuf.set s.dec.idx b) 2 s.dec.len.toNat) = b
      · rw [if_neg (not_not_intro hcrc)] at h
        cases h
        obtain ⟨o, ho⟩ := dispatch_confined s.dec.len.toNat (s.afterCrc b)
        exact ⟨o, fun m => (heq m).trans (congrArg _ ((if_neg (not_not_intro hcrc)).trans (ho m)))⟩
      · rw [if_pos hcrc] at h
        cases h
        exact ⟨reply .crcMismatch, fun m => (heq m).trans (congrArg _ (if_pos hcrc))⟩
    · rw [feedCrc, if_neg hlen] at h
      cases h

/-- POLL reads and writes the multiplexer's part only. -/
theorem execPoll_confined : Confined .withMuxOf .withMuxOf execPoll := by
  intro s t h
  cases hk : s.tel.nextKind with
  | none =>
    rw [execPoll_none s hk] at h
    cases h
    exact ⟨reply .pollNone, fun m => execPoll_none (m.withMuxOf s) hk⟩
  | some k =>
    rw [execPoll_some s k hk] at h
    cases h
    exact ⟨⟨⟨pollCode k, 0⟩, [], frameBytes Config.syncTx (frameType k) (s.tel.payload k)⟩, fun m =>
      execPoll_some (m.withMuxOf s) k hk⟩

/-- SETCUS reads and writes the multiplexer's part only. -/
theorem execSetcus_confined (data : List Byte) : Confined .withMuxOf .withMuxOf (execSetcus data) := by
  intro s t h
  by_cases hlen : data.length < 61 <;> simp only [execSetcus, hlen, dif_pos, dif_neg, not_false_iff] at h ⊢ <;> cases h
  · exact ⟨reply .ack, fun m => rfl⟩
  · exact ⟨reply .reject, fun m => rfl⟩

/-- The decoder's commands stay in the decoder's part. -/
theorem exec_confined_to_decoder (i : Instr) (hi : i = .dreset ∨ ∃ b, i = .feed b) :
    Confined .withDecoderInputsOf .withDecoderOf (exec i) := by
  obtain rfl | ⟨b, rfl⟩ := hi
  · intro s t h
    cases h
    exact ⟨reply .ack, fun m => rfl⟩
  · exact execFeed_confined b

/-- The multiplexer's commands stay in the multiplexer's part. -/
theorem exec_confined_to_mux (i : Instr)
    (hi : i = .poll ∨ (∃ d, i = .setcus d) ∨ ∃ v c k p, i = .setbat v c k p) :
    Confined .withMuxOf .withMuxOf (exec i) := by
  obtain rfl | ⟨d, rfl⟩ | ⟨v, c, k, p, rfl⟩ := hi
  · exact execPoll_confined
  · exact execSetcus_confined d
  · intro s t h
    cases h
    exact ⟨reply .ack, fun m => rfl⟩

end Sys2Proof.Machine

open Sys2Proof Sys2Proof.Machine in
/-- Settles O56: each side's commands are confined to their part, so their result and output on two states that agree
there are the same, and the other part is the state's own. -/
theorem decoderAndMultiplexerAreSeparate : Obligations.DecoderAndMultiplexerAreSeparate := by
  refine ⟨fun i s s' t hi hd hc hf hl hr h => ?_, fun i s s' t hi ht hw h => ?_⟩
  · obtain ⟨o, hself, hother⟩ := (exec_confined_to_decoder i hi).of_agree rfl
      (State.withDecoderInputsOf_of_agree s s' hd hc hf hl hr) h
    refine ⟨_, o, hother, rfl, rfl, rfl, ?_, rfl, ?_⟩ <;> rw [hself]
    · rfl
    · exact ⟨rfl, rfl, rfl, rfl⟩
  · obtain ⟨o, hself, hother⟩ := (exec_confined_to_mux i hi).of_agree rfl (State.withMuxOf_of_agree s s' ht hw) h
    refine ⟨_, o, hother, rfl, rfl, ?_, rfl, ?_⟩ <;> rw [hself]
    · rfl
    · exact ⟨rfl, rfl, rfl, rfl, rfl⟩
end

/-! ## The command port's byte strings (30_encoding.md R82, R83, R86) -/

section
namespace Sys2Proof

/-! ### Opcodes -/

/-- The opcode map of R82, exhausted: one of the eight commands' opcodes, or an illegal one (R86). -/
theorem opcode_cases (op : Byte) : op = 0x01 ∨ op = 0x02 ∨ op = 0x03 ∨ op = 0x04 ∨ op = 0x05 ∨ op = 0x06 ∨ op = 0x07 ∨
    op = 0x08 ∨ op = 0x00 ∨ 9 ≤ op.toNat := by
  bv_omega

/-- No opcode of R82 is an illegal one. -/
theorem ne_opcode_of_illegal {op : Byte} (hop : op = 0x00 ∨ 9 ≤ op.toNat) : op ≠ 0x01 ∧ op ≠ 0x02 ∧ op ≠ 0x03 ∧
    op ≠ 0x04 ∧ op ≠ 0x05 ∧ op ≠ 0x06 ∧ op ≠ 0x07 ∧ op ≠ 0x08 := by
  bv_omega

theorem decodeCommand_illegal {op : Byte} (hop : op = 0x00 ∨ 9 ≤ op.toNat) (rest : List Byte) :
    decodeCommand (op :: rest) = .ok (.illegal op, rest) := by
  have hnat : op.toNat = 0 ∨ 9 ≤ op.toNat := by bv_omega
  simp only [decodeCommand]
  split
  case h_9 => rfl
  all_goals omega

theorem commandLength_illegal {op : Byte} (hop : op = 0x00 ∨ 9 ≤ op.toNat) (next : Byte) : commandLength op next = 1 := by
  have hnat : op.toNat = 0 ∨ 9 ≤ op.toNat := by bv_omega
  have hformat : formatOf op = .f0 := by
    unfold formatOf
    split
    case h_7 => rfl
    all_goals omega
  rw [commandLength, hformat]

/-! ### What a decoding cuts off -/

/-- `r` is a decoding of the stream `bs` that takes exactly `n` bytes, and holds exactly while fewer have come. -/
def Cuts (n : Nat) (bs : List Byte) (r : Except Hold (Instr × List Byte)) : Prop :=
  (n ≤ bs.length → ∃ i, r = .ok (i, bs.drop n)) ∧ (bs.length < n → ∃ why, r = .error why)

/-- A decoding of what follows the opcode takes the opcode too. -/
theorem Cuts.cons {n : Nat} {bs : List Byte} {r : Except Hold (Instr × List Byte)} (h : Cuts n bs r) (op : Byte) :
    Cuts (n + 1) (op :: bs) r := by
  simpa [Cuts] using h

theorem cuts_done (i : Instr) (bs : List Byte) : Cuts 0 bs (.ok (i, bs)) := by
  simp [Cuts]

theorem cuts_decodeF1 (mk : Byte → Instr) (bs : List Byte) : Cuts 1 bs (decodeF1 mk bs) := by
  cases bs <;> simp [Cuts, decodeF1]

theorem cuts_decodeF8 (bs : List Byte) : Cuts 8 bs (decodeF8 bs) := by
  constructor
  · intro hlen
    match bs, hlen with
    | _ :: _ :: _ :: _ :: _ :: _ :: _ :: _ :: rest, _ => exact ⟨_, rfl⟩
  · intro hlen
    unfold decodeF8
    split
    · simp only [List.length_cons] at hlen
      omega
    · exact ⟨_, rfl⟩

/-- The bytes after the opcode: the count, and as many data bytes as it says. -/
theorem cuts_decodeFN (mk : List Byte → Instr) (bs : List Byte) :
    Cuts ((bs.getD 0 0).toNat + 1) bs (decodeFN mk bs) := by
  cases bs with
  | nil => simp [Cuts, decodeFN]
  | cons n rest =>
    apply Cuts.cons
    constructor <;> intro hlen
    · exact ⟨_, if_neg (Nat.not_lt.mpr hlen)⟩
    · exact ⟨_, if_pos hlen⟩

/-- An FN command with its opcode, as R83 counts its bytes. -/
theorem cuts_cons_decodeFN (op : Byte) (mk : List Byte → Instr) (bs : List Byte) :
    Cuts (2 + (bs.getD 0 0).toNat) (op :: bs) (decodeFN mk bs) := by
  rw [Nat.add_comm]
  exact (cuts_decodeFN mk bs).cons op

/-- The decoder takes the bytes R83 counts. -/
theorem cuts_decodeCommand (op : Byte) (bs : List Byte) :
    Cuts (commandLength op (bs.getD 0 0)) (op :: bs) (decodeCommand (op :: bs)) := by
  obtain rfl | rfl | rfl | rfl | rfl | rfl | rfl | rfl | hop := opcode_cases op
  · exact (cuts_decodeF1 .feed bs).cons _
  · exact (cuts_done .dreset bs).cons _
  · exact (cuts_decodeF1 .setlqt bs).cons _
  · exact (cuts_decodeF1 .setrst bs).cons _
  · exact (cuts_decodeF8 bs).cons _
  · exact cuts_cons_decodeFN _ .setcus bs
  · exact (cuts_done .poll bs).cons _
  · exact cuts_cons_decodeFN _ .crc bs
  · rw [commandLength_illegal hop, decodeCommand_illegal hop]
    exact (cuts_done (.illegal op) bs).cons _

end Sys2Proof

open Sys2Proof Sys2Proof.Machine in
/-- Settles O12: R83's table opcode by opcode, and the decoding of each format takes that format's bytes. -/
theorem commandLengthIsDecidedByTwoBytes : Obligations.CommandLengthIsDecidedByTwoBytes := by
  refine ⟨fun op next => ?_, cuts_decodeCommand⟩
  obtain rfl | rfl | rfl | rfl | rfl | rfl | rfl | rfl | hop := opcode_cases op
  case inr.inr.inr.inr.inr.inr.inr.inr =>
    simp only [commandLength_illegal hop, ne_opcode_of_illegal hop, or_self, if_false]
  all_goals rfl

open Sys2Proof Sys2Proof.Machine in
/-- Settles O13: the decoder and `execIllegal` leave everything but the outputs alone. -/
theorem illegalOpcodesOnlyRespond : Obligations.IllegalOpcodesOnlyRespond :=
  fun _ rest _ hop => ⟨decodeCommand_illegal hop rest, rfl, rfl⟩
end

/-! ## A command's outputs (30_encoding.md R89 to R93) -/

section
namespace Sys2Proof.Machine

/-! ### The kind a POLL serves (45_telemetry_mux.md R229) -/

/-- There is no third kind. -/
theorem kind_eq_or_eq_add_one (k c : Kind) : k = c ∨ k = c + 1 := by
  decide +revert

theorem Telemetry.not_pending_of_nextKind_none {tel : Telemetry} (h : tel.nextKind = none) (k : Kind) :
    tel.pending[k] = false := by
  rw [nextKind_eq] at h
  split at h
  case isTrue => cases h
  case isFalse hcursor =>
    split at h
    case isTrue => cases h
    case isFalse hnext =>
      obtain rfl | rfl := kind_eq_or_eq_add_one k tel.muxCursor
      · exact Bool.eq_false_of_not_eq_true hcursor
      · exact Bool.eq_false_of_not_eq_true hnext

theorem Telemetry.serves_of_nextKind_some {tel : Telemetry} {k : Kind} (h : tel.nextKind = some k) : tel.Serves k := by
  rw [nextKind_eq] at h
  split at h
  case isTrue hcursor =>
    cases h
    exact ⟨hcursor, .inl rfl⟩
  case isFalse hcursor =>
    split at h
    case isTrue hnext =>
      cases h
      exact ⟨hnext, .inr (Bool.eq_false_of_not_eq_true hcursor)⟩
    case isFalse => cases h

/-! ### Events -/

theorem legalEvents_link_failsafe (ls : LinkStats) (old new : Bool) :
    LegalEvents (.link ls :: failsafeEvents old new) := by
  unfold failsafeEvents
  split
  · exact .link ls
  · exact .linkFailsafe ls new

theorem FeedEffect.legalEvents {s t : State} {o : StepOutput} (h : FeedEffect s t o) : LegalEvents o.events := by
  cases h with
  | quiet he => rw [he]; exact .none
  | rc he => rw [he]; exact .rc t.chan
  | link ls he => rw [he]; exact legalEvents_link_failsafe ls s.failsafe t.failsafe

/-! ### The output of each command -/

/-- The output a command's step from `s` to `t` adds. -/
inductive CommandOutput (s t : State) : Instr → StepOutput → Prop where
  | feed (b : Byte) (o : StepOutput) (hcode : o.response.code.toByte.toNat ≤ 7) (hvalue : o.response.value = 0)
      (htransmit : o.transmit = []) (heffect : FeedEffect s t o) : CommandOutput s t (.feed b) o
  | dreset : CommandOutput s t .dreset (reply .ack)
  | setlqt (x : Byte) : CommandOutput s t (.setlqt x) (reply .ack)
  | setrst (x : Byte) : CommandOutput s t (.setrst x) (reply .ack)
  | setbat (v c : BitVec 16) (k : BitVec 24) (p : Byte) : CommandOutput s t (.setbat v c k p) (reply .ack)
  | setcus (data : List Byte) : CommandOutput s t (.setcus data) (reply (if 60 < data.length then .reject else .ack))
  | pollNone (hnone : ∀ k : Kind, s.tel.pending[k] = false) : CommandOutput s t .poll (reply .pollNone)
  | pollKind (k : Kind) (hk : s.tel.Serves k) : CommandOutput s t .poll
      ⟨⟨pollCode k, 0⟩, [], frameBytes Config.syncTx (frameType k) (s.tel.payload k)⟩
  | crc (data : List Byte) : CommandOutput s t (.crc data) ⟨⟨.crcResult, crc8 data⟩, [], []⟩
  | illegal (op : Byte) : CommandOutput s t (.illegal op) ⟨⟨.illegal, op⟩, [], []⟩

/-- A command's step adds one output. -/
theorem exec_commandOutput {i : Instr} {s t : State} (hi : i.isCommand = true) (h : exec i s = .next t) :
    ∃ o, t.outputs = s.outputs ++ [o] ∧ CommandOutput s t i o := by
  cases i with
  | feed b =>
    obtain ⟨o, ht, hvalue, htransmit, hcode, -, heffect⟩ := execFeed_next b s t h
    exact ⟨o, congrArg State.outputs ht, .feed b o hcode hvalue htransmit heffect⟩
  | dreset => cases h; exact ⟨_, rfl, .dreset⟩
  | setlqt x => cases h; exact ⟨_, rfl, .setlqt x⟩
  | setrst x => cases h; exact ⟨_, rfl, .setrst x⟩
  | setbat v c k p => cases h; exact ⟨_, rfl, .setbat v c k p⟩
  | setcus data =>
    refine ⟨_, ?_, .setcus data⟩
    simp only [exec, execSetcus] at h
    split at h
    case isTrue hlen => cases h; rw [if_neg (by omega)]; rfl
    case isFalse hlen => cases h; rw [if_pos (by omega)]; rfl
  | poll =>
    cases hk : s.tel.nextKind with
    | none =>
      rw [show exec .poll s = _ from execPoll_none s hk] at h
      cases h
      exact ⟨_, rfl, .pollNone (Telemetry.not_pending_of_nextKind_none hk)⟩
    | some k =>
      rw [show exec .poll s = _ from execPoll_some s k hk] at h
      cases h
      exact ⟨_, rfl, .pollKind k (Telemetry.serves_of_nextKind_some hk)⟩
  | crc data => cases h; exact ⟨_, rfl, .crc data⟩
  | illegal op => cases h; exact ⟨_, rfl, .illegal op⟩
  | wReset | wU8 | wS8 | wU16 | wS16 | wU24 | wS24 | wU32 | wS32 | wPatch | wReserved => cases hi

/-- A micro-op's step adds no output. -/
theorem exec_microOp_outputs {i : Instr} {s t : State} (hi : i.isCommand = false) (h : exec i s = .next t) :
    t.outputs = s.outputs := by
  cases i with
  | feed | dreset | setlqt | setrst | setbat | setcus | poll | crc | illegal => cases hi
  | wReserved => cases h
  | wReset | wU8 | wS8 | wU16 | wS16 | wU24 | wS24 | wU32 | wS32 | wPatch => cases h; rfl

/-- A step that adds an output is a command's, and the output is that command's. -/
theorem commandOutput_of_outputs {i : Instr} {s t : State} {o : StepOutput} (h : exec i s = .next t)
    (ho : t.outputs = s.outputs ++ [o]) : CommandOutput s t i o := by
  cases hi : i.isCommand with
  | true =>
    obtain ⟨o', ho', hout⟩ := exec_commandOutput hi h
    rw [ho'] at ho
    cases List.append_cancel_left ho
    exact hout
  | false =>
    rw [exec_microOp_outputs hi h] at ho
    simp at ho

theorem CommandOutput.legalEvents {s t : State} {i : Instr} {o : StepOutput} (h : CommandOutput s t i o) :
    LegalEvents o.events := by
  cases h with
  | feed b o _ _ _ heffect => exact heffect.legalEvents
  | dreset | setlqt | setrst | setbat | setcus | pollNone | pollKind | crc | illegal => exact .none

end Sys2Proof.Machine

open Sys2Proof Sys2Proof.Machine in
/-- Settles O16: the output is the one `CommandOutput` gives the command. -/
theorem everyCommandProducesOneOutput : Obligations.EveryCommandProducesOneOutput := by
  intro i s t hi h
  obtain ⟨o, ho, hout⟩ := exec_commandOutput hi h
  exact ⟨o, ho, hout.legalEvents⟩

open Sys2Proof Sys2Proof.Machine in
/-- Settles O18: the table's rows are read off the command's output; a micro-op has none. -/
theorem responsesFollowTheCodeTable : Obligations.ResponsesFollowTheCodeTable := by
  refine ⟨rfl, fun i s t o h ho => ?_⟩
  cases commandOutput_of_outputs h ho with
  | feed b o hcode hvalue => exact ⟨hcode, hvalue⟩
  | dreset | setlqt | setrst | setbat | setcus | crc | illegal => rfl
  | pollNone hnone => exact .inl ⟨rfl, hnone⟩
  | pollKind k hk => exact .inr ⟨k, hk, rfl, List.cons_ne_nil _ _⟩
end

/-! ## The CRC8 engine (40_crc8.md R110 to R113) -/

section
namespace Sys2Proof.Machine

/-- A one-byte list's CRC is its table entry (R113). -/
theorem crc8_singleton (i : Byte) : crc8 [i] = crcTab i := by
  calc crc8 [i] = crcTab (crc8 [] ^^^ i) := crc8_snoc [] i
    _ = crcTab i := by rw [crc8_nil]; exact congrArg crcTab BitVec.zero_xor

/-- The residue: a list followed by its own CRC has CRC 0, since the last update indexes the table at 0. -/
theorem crc8_append_crc8 (d : List Byte) : crc8 (d ++ [crc8 d]) = 0 := by
  calc crc8 (d ++ [crc8 d]) = crcTab (crc8 d ^^^ crc8 d) := crc8_snoc d (crc8 d)
    _ = crcTab 0 := congrArg crcTab BitVec.xor_self
    _ = 0 := crcTab_zero

/-- The bit that a shift pushes out, `msb`, is bit 7 of the byte (R111). -/
theorem crcShift_eq_ite_getLsbD (c : Byte) : crcShift c = if c.getLsbD 7 then (c <<< 1) ^^^ 0xD5 else c <<< 1 := rfl

theorem wellFormed_crc_iff (d : List Byte) : Instr.wellFormed (.crc d) = true ↔ d.length ≤ 255 := decide_eq_true_iff

/-- CRC only adds its output (R113). -/
theorem exec_crc (d : List Byte) (s : State) :
    exec (.crc d) s = .next (s.respond ⟨⟨.crcResult, crc8 d⟩, [], []⟩) := rfl

end Sys2Proof.Machine

open Sys2Proof Sys2Proof.Machine in
/-- Settles O20: the command's meaning is one response; the three corner cases are the empty list, the single byte and
the residue. -/
theorem crcCommandRespondsWithTheCrc : Obligations.CrcCommandRespondsWithTheCrc := by
  refine fun d s => ⟨rfl, wellFormed_crc_iff d, exec_crc d s, rfl, ?_, ?_, crc8_append_crc8 d⟩
  · rintro rfl
    exact crc8_nil
  · rintro i rfl
    exact crc8_singleton i

open Sys2Proof Sys2Proof.Machine in
/-- Settles O21: the table transcribed from R111 is eight shifts of its index, and each of them is the statement's. -/
theorem crc8IsTableDriven : Obligations.Crc8IsTableDriven := by
  refine ⟨crc8_nil, crc8_snoc, fun i => ?_⟩
  simp only [← crcShift_eq_ite_getLsbD]
  exact crcTab_eq_bitwise i
end

/-! ## The frame decoder (42_frame_decoder.md R150 to R157) -/

section
namespace Sys2Proof.Machine

/-! ### FEED by decoder state (R150) -/

theorem exec_feed (b : Byte) (s : State) : exec (.feed b) s = execFeed b s := rfl

theorem exec_feed_awaitSync {s : State} (h : s.dec.state = .awaitSync) (b : Byte) :
    exec (.feed b) s = feedSync b s := by
  rw [exec_feed, execFeed, h]

theorem exec_feed_awaitLength {s : State} (h : s.dec.state = .awaitLength) (b : Byte) :
    exec (.feed b) s = feedLength b s := by
  rw [exec_feed, execFeed, h]

theorem exec_feed_accumulate {s : State} (h : s.dec.state = .accumulate) (b : Byte) :
    exec (.feed b) s = feedAccumulate b s := by
  rw [exec_feed, execFeed, h]

theorem exec_feed_awaitCrc {s : State} (h : s.dec.state = .awaitCrc) (b : Byte) :
    exec (.feed b) s = feedCrc b s := by
  rw [exec_feed, execFeed, h]

/-! ### R38's rows of the states inside a frame -/

theorem Decoder.Inv.accumulate {d : Decoder} (h : d.Inv) (hst : d.state = .accumulate) :
    2 ≤ d.len.toNat ∧ d.len.toNat ≤ 62 ∧ d.rxbuf[1] = d.len ∧ 2 ≤ d.idx.val ∧ d.idx.val ≤ d.len.toNat := by
  obtain ⟨-, -, haccumulate, -⟩ := h
  exact haccumulate hst

theorem Decoder.Inv.awaitCrc {d : Decoder} (h : d.Inv) (hst : d.state = .awaitCrc) :
    2 ≤ d.len.toNat ∧ d.len.toNat ≤ 62 ∧ d.idx.val = d.len.toNat + 1 := by
  obtain ⟨-, -, -, hcrc⟩ := h
  exact hcrc hst

/-! ### What a FEED delivers -/

/-- Only the dispatch of a link-statistics frame moves `failsafe`. -/
theorem FeedEffect.code_of_failsafe_ne {s t : State} {o : StepOutput} (h : FeedEffect s t o)
    (hne : t.failsafe ≠ s.failsafe) : o.response.code = .frameLink := by
  cases h with
  | quiet _ _ hf => exact absurd hf hne
  | rc _ hf => exact absurd hf hne
  | link _ _ _ _ hr => exact hr

/-- Only the dispatch of an RC frame stores channels. -/
theorem FeedEffect.code_of_chan_ne {s t : State} {o : StepOutput} (h : FeedEffect s t o) (hne : t.chan ≠ s.chan) :
    o.response.code = .frameRc := by
  cases h with
  | quiet _ hc => exact absurd hc hne
  | rc _ _ hr => exact hr
  | link _ _ hc => exact absurd hc hne

/-! ### The dispatch of a CRC-valid frame (R156) -/

theorem dispatch_ignored {s : State} (hrc : s.dec.rxbuf[2] ≠ 0x16) (hls : s.dec.rxbuf[2] ≠ 0x14) (len : Nat) :
    dispatch len s = s.respond (reply .frameIgnored) :=
  (if_neg hrc).trans (if_neg hls)

theorem dispatch_rc {s : State} (ht : s.dec.rxbuf[2] = 0x16) (len : Nat) :
    dispatch len s = if len - 2 = 22 then rcDispatch s else s.respond (reply .frameSizeMismatch) :=
  if_pos ht

theorem dispatch_link {s : State} (ht : s.dec.rxbuf[2] = 0x14) (len : Nat) :
    dispatch len s = if len - 2 = 10 then linkDispatch s else s.respond (reply .frameSizeMismatch) :=
  (if_neg (by rw [ht]; decide)).trans (if_pos ht)

theorem dispatch_sizeMismatch {s : State} {len : Nat}
    (h : s.dec.rxbuf[2] = 0x16 ∧ len - 2 ≠ 22 ∨ s.dec.rxbuf[2] = 0x14 ∧ len - 2 ≠ 10) :
    dispatch len s = s.respond (reply .frameSizeMismatch) := by
  obtain ⟨ht, hm⟩ | ⟨ht, hm⟩ := h
  · rw [dispatch_rc ht, if_neg hm]
  · rw [dispatch_link ht, if_neg hm]

/-! ### FEED in AWAIT_CRC (R154) -/

/-- Storing the CRC byte at `dec_idx` leaves the frame before it as it was. -/
theorem State.afterCrc_slice (s : State) (b : Byte) (i : Nat) {j : Nat} (h : j < s.dec.idx.val) :
    slice (s.afterCrc b).dec.rxbuf i j = slice s.dec.rxbuf i j :=
  slice_set_of_lt _ _ _ _ _ s.dec.idx.isLt h

theorem State.afterCrc_frameType (s : State) (b : Byte) (h : 2 < s.dec.idx.val) :
    (s.afterCrc b).dec.rxbuf[2] = s.dec.rxbuf[2] :=
  Vector.getElem_set_ne s.dec.idx.isLt _ (by omega)

/-- The comparison of R154, on the frame as it stands before the CRC byte is stored. -/
theorem exec_feed_crc {s : State} (hinv : s.dec.Inv) (hst : s.dec.state = .awaitCrc) (b : Byte) :
    exec (.feed b) s = .next (if b = crc8 (slice s.dec.rxbuf 2 s.dec.len.toNat)
      then dispatch s.dec.len.toNat (s.afterCrc b) else (s.afterCrc b).respond (reply .crcMismatch)) := by
  obtain ⟨-, hlen, hidx⟩ := hinv.awaitCrc hst
  have hslice := s.afterCrc_slice b 2 (j := s.dec.len.toNat) (by omega)
  rw [exec_feed_awaitCrc hst, feedCrc_eq b s (by omega), ite_not, ← hslice]
  exact congrArg _ (if_congr eq_comm rfl rfl)

theorem exec_feed_crc_mismatch {s : State} (hinv : s.dec.Inv) (hst : s.dec.state = .awaitCrc) {b : Byte}
    (hb : b ≠ crc8 (slice s.dec.rxbuf 2 s.dec.len.toNat)) :
    exec (.feed b) s = .next ((s.afterCrc b).respond (reply .crcMismatch)) := by
  rw [exec_feed_crc hinv hst, if_neg hb]

theorem exec_feed_crc_match {s : State} (hinv : s.dec.Inv) (hst : s.dec.state = .awaitCrc) {b : Byte}
    (hb : b = crc8 (slice s.dec.rxbuf 2 s.dec.len.toNat)) :
    exec (.feed b) s = .next (dispatch s.dec.len.toNat (s.afterCrc b)) := by
  rw [exec_feed_crc hinv hst, if_pos hb]

/-- A dispatched RC frame, decoded from the frame as it stands before the CRC byte is stored. -/
theorem rcDispatch_afterCrc {s : State} (b : Byte) (h : 24 < s.dec.idx.val) :
    rcDispatch (s.afterCrc b) =
      { s.afterCrc b with chan := unpackRc (slice s.dec.rxbuf 3 24) }.respond
        ⟨⟨.frameRc, 0⟩, [.rc (unpackRc (slice s.dec.rxbuf 3 24))], []⟩ := by
  rw [rcDispatch, s.afterCrc_slice b 3 h]

/-- A dispatched link-statistics frame, decoded from the frame as it stands before the CRC byte is stored. -/
theorem linkDispatch_afterCrc {s : State} (b : Byte) (h : 12 < s.dec.idx.val) :
    let ls := unpackLs Config.antSelectPolarity Config.txpwrMw (slice s.dec.rxbuf 3 12)
    let f := fsEval ls s.lqThr s.rssiThr
    linkDispatch (s.afterCrc b) = { s.afterCrc b with failsafe := f }.respond
      ⟨⟨.frameLink, 0⟩, .link ls :: failsafeEvents s.failsafe f, []⟩ := by
  rw [linkDispatch, s.afterCrc_slice b 3 h]
  rfl

end Sys2Proof.Machine

open Sys2Proof Sys2Proof.Machine in
/-- Settles O32: the comparison's two outcomes, and the dispatch of the type and payload size still in the buffer. -/
theorem feedInAwaitCrc : Obligations.FeedInAwaitCrc := by
  intro b s hinv hst
  obtain ⟨hmin, -, hidx⟩ := hinv.awaitCrc hst
  have htype := s.afterCrc_frameType b (by omega)
  refine ⟨exec_feed_crc_mismatch hinv hst, fun hb => ?_⟩
  rw [exec_feed_crc_match hinv hst hb, ← htype]
  refine ⟨fun hrc hls => ?_, fun hsize => ?_, fun ht hm => ?_, fun ht hm => ?_⟩
  · rw [dispatch_ignored hrc hls]
    rfl
  · rw [dispatch_sizeMismatch hsize]
    rfl
  · rw [dispatch_rc ht, if_pos hm, rcDispatch_afterCrc b (by omega)]
    rfl
  · rw [dispatch_link ht, if_pos hm, linkDispatch_afterCrc b (by omega)]
    rfl

open Sys2Proof Sys2Proof.Machine in
/-- Settles O28: a legal decoder state's FEED completes, and `execFeed_next` says what it can have done. -/
theorem feedAnswersOneOutcome : Obligations.FeedAnswersOneOutcome := by
  intro b s hinv
  obtain ⟨t, ht, -⟩ := execFeed_inv b s hinv
  obtain ⟨o, hframe, hvalue, htransmit, hcode, -, heffect⟩ := execFeed_next b s t ht
  exact ⟨rfl, rfl, t, o, ht, hframe, hcode, hvalue, htransmit, heffect.code_of_failsafe_ne, heffect.code_of_chan_ne⟩

open Sys2Proof Sys2Proof.Machine in
/-- Settles O29: the two branches of `feedSync`. -/
theorem feedInAwaitSync : Obligations.FeedInAwaitSync := by
  intro b s hst
  rw [exec_feed_awaitSync hst]
  exact ⟨fun hsync => if_pos hsync, fun hA hB => if_neg (not_or_intro hA hB)⟩

open Sys2Proof Sys2Proof.Machine in
/-- Settles O30: the two branches of `feedLength`. -/
theorem feedInAwaitLength : Obligations.FeedInAwaitLength := by
  intro b s hst
  rw [exec_feed_awaitLength hst]
  refine ⟨fun hmin hmax => if_pos ⟨hmin, hmax⟩, fun hout => ?_⟩
  have hrange : ¬(2 ≤ b.toNat ∧ b.toNat ≤ 62) := by omega
  exact if_neg hrange

open Sys2Proof Sys2Proof.Machine in
/-- Settles O31: R38 keeps the new index inside the buffer, so the byte is stored. -/
theorem feedInAccumulate : Obligations.FeedInAccumulate := by
  intro b s hinv hst
  obtain ⟨-, hmax, -, -, hidx⟩ := hinv.accumulate hst
  have hfits : s.dec.idx.val + 1 < 64 := by omega
  rw [exec_feed_accumulate hst, feedAccumulate, dif_pos hfits]
  refine ⟨_, rfl, rfl, rfl, rfl, fun j hj => ?_⟩
  rw [Vector.getElem_set]
  exact if_congr eq_comm rfl rfl

open Sys2Proof Sys2Proof.Machine in
/-- Settles O37: DRESET's meaning is `decoder_reset()` and the ACK. -/
theorem dresetResetsOnlyTheDecoder : Obligations.DresetResetsOnlyTheDecoder :=
  fun _ => ⟨rfl, rfl⟩
end

/-! ## The payload codecs (43_payload_codecs.md R180 to R187, 44_failsafe.md R210) -/

section
namespace Sys2Proof.Machine

/-! ### A frame's payload in the receive buffer -/

/-- Byte j of the frame slice that starts at the payload is `p[j]`. -/
theorem slice_getD_payloadByte (s : State) {j n : Nat} (h : 3 + j ≤ n) :
    (slice s.dec.rxbuf 3 n).getD j 0 = s.payloadByte j := by
  rw [State.payloadByte, slice_eq_drop_take, List.getD_eq_getElem?_getD, List.getD_eq_getElem?_getD,
    List.getElem?_drop, List.getElem?_take_of_lt (by omega)]

/-! ### RC channels (R180) -/

/-- The little-endian value as the sum the spec writes (20_memory.md R64). -/
theorem leValue_eq_sum (p : List Byte) :
    leValue p = ∑ j ∈ Finset.range p.length, (p.getD j 0).toNat * 2 ^ (8 * j) := by
  induction p with
  | nil => rfl
  | cons b bs ih =>
    have hweight (j x : Nat) : x * 2 ^ (8 * (j + 1)) = 256 * (x * 2 ^ (8 * j)) := by ring
    rw [leValue, ih, List.length_cons, Finset.sum_range_succ', Finset.mul_sum, add_comm]
    simp [hweight]

/-- The payload value of an RC frame, from the bytes in the receive buffer. -/
theorem leValue_rcPayload (s : State) :
    leValue (slice s.dec.rxbuf 3 24) = ∑ j ∈ Finset.range 22, (s.payloadByte j).toNat * 2 ^ (8 * j) := by
  rw [leValue_eq_sum, slice_length _ _ _ (by decide)]
  refine Finset.sum_congr rfl fun j hj => ?_
  have hlt : j < 22 := Finset.mem_range.mp hj
  rw [slice_getD_payloadByte s (by omega)]

theorem unpackRc_getElem_toNat (p : List Byte) (i : Nat) (h : i < 16) :
    (unpackRc p)[i].toNat = (leValue p >>> (11 * i)) &&& 0x7FF := by
  have hlt : (leValue p >>> (11 * i)) &&& 0x7FF < 2 ^ 11 := Nat.and_lt_two_pow _ (by decide)
  rw [unpackRc, Vector.getElem_ofFn, BitVec.toNat_ofNat, Nat.mod_eq_of_lt hlt]

/-! ### Link statistics (R183 to R187) -/

/-- This hardware's polarity: antenna byte 0 selects antenna 1 (R185). -/
theorem selectRssi_false (rssi1 rssi2 antenna : Byte) :
    selectRssi false rssi1 rssi2 antenna = if antenna = 0 then rssi1 else rssi2 := by
  by_cases h : antenna = 0 <;> simp [selectRssi, h]

/-- An index past the table has power 0 (R186). -/
theorem txpwrMap_eq_getD (table : Vector (BitVec 16) 9) (i : Byte) :
    txpwrMap table i = table.toList.getD i.toNat 0 := by
  rw [txpwrMap]
  split
  case isTrue h => rw [List.getD_eq_getElem _ _ (by simpa using h), Vector.getElem_toList]
  case isFalse h => rw [List.getD_eq_default _ _ (by simpa using h)]

/-- The two's-complement reading of a byte (R187). -/
theorem byte_toInt (v : Byte) : v.toInt = if v.toNat < 128 then (v.toNat : Int) else v.toNat - 256 := by
  rw [BitVec.toInt_eq_toNat_cond]
  exact if_congr (by omega) rfl rfl

/-- A payload's ten bytes are its record's ten raw fields. -/
theorem packLs_unpackLs (polarity : Bool) (table : Vector (BitVec 16) 9) :
    ∀ p : List Byte, p.length = 10 → packLs (unpackLs polarity table p) = p
  | [_, _, _, _, _, _, _, _, _, _], _ => rfl

/-- The comparator's unsigned comparisons (44_failsafe.md R210). -/
theorem fsEval_eq_true_iff (ls : LinkStats) (lqt rst : Byte) :
    fsEval ls lqt rst = true ↔ ls.lq.toNat ≤ lqt.toNat ∨ rst.toNat ≤ ls.rssi.toNat := by
  rw [fsEval, Bool.or_eq_true, decide_eq_true_iff, decide_eq_true_iff, BitVec.le_def, BitVec.le_def]

end Sys2Proof.Machine

open Sys2Proof Sys2Proof.Machine in
/-- Settles O33: R156's dispatch of the frame, each channel read off the payload value. -/
theorem rcFrameStoresTheChannels : Obligations.RcFrameStoresTheChannels := by
  intro b s hinv hst hlen htype hb
  have hsize : s.dec.len.toNat = 24 := congrArg BitVec.toNat hlen
  obtain ⟨-, hmatch⟩ := feedInAwaitCrc b s hinv hst
  obtain ⟨-, -, hrc, -⟩ := hmatch (by rw [hsize]; exact hb)
  refine ⟨_, hrc htype (by rw [hsize]), fun i hi => ?_⟩
  rw [unpackRc_getElem_toNat _ i hi, leValue_rcPayload]

open Sys2Proof Sys2Proof.Machine in
/-- Settles O34: R156's dispatch of the frame; the record's derived fields and the comparator by their own rules. -/
theorem linkFrameReportsAndDecidesFailsafe : Obligations.LinkFrameReportsAndDecidesFailsafe := by
  refine ⟨rfl, fun b s hinv hst hlen htype hb => ?_⟩
  have hsize : s.dec.len.toNat = 12 := congrArg BitVec.toNat hlen
  obtain ⟨-, hmatch⟩ := feedInAwaitCrc b s hinv hst
  obtain ⟨-, -, -, hlink⟩ := hmatch (by rw [hsize]; exact hb)
  exact ⟨_, hlink htype (by rw [hsize]), selectRssi_false _ _ _, txpwrMap_eq_getD _ _,
    slice_getD_payloadByte s (by decide), fsEval_eq_true_iff _ _ _⟩

open Sys2Proof Sys2Proof.Machine in
/-- Settles O36: the two signed fields are bytes 3 and 9, and the record holds all ten. -/
theorem snrFieldsAreTwosComplement : Obligations.SnrFieldsAreTwosComplement :=
  fun polarity table p => ⟨byte_toInt _, byte_toInt _, packLs_unpackLs polarity table p⟩
end

/-! ## The thresholds and the failsafe flag (44_failsafe.md R210 to R214) -/

section
namespace Sys2Proof.Machine

/-! ### The comparator at a threshold's extreme values (R212, R213) -/

theorem fsEval_lqt_max (ls : LinkStats) (rst : Byte) : fsEval ls 255 rst = true :=
  (fsEval_eq_true_iff ls 255 rst).mpr (.inl (Nat.le_of_lt_succ ls.lq.isLt))

theorem fsEval_rst_zero (ls : LinkStats) (lqt : Byte) : fsEval ls lqt 0 = true :=
  (fsEval_eq_true_iff ls lqt 0).mpr (.inr (Nat.zero_le _))

/-- No link quality but 0 is at or below the threshold 0. -/
theorem fsEval_lqt_zero_iff (ls : LinkStats) (rst : Byte) :
    fsEval ls 0 rst = true ↔ ls.lq = 0 ∨ rst.toNat ≤ ls.rssi.toNat := by
  have hlq : ls.lq.toNat ≤ (0 : Byte).toNat ↔ ls.lq = 0 := by bv_omega
  rw [fsEval_eq_true_iff, hlq]

/-- No RSSI but 255 reaches the threshold 255. -/
theorem fsEval_rst_max_iff (ls : LinkStats) (lqt : Byte) :
    fsEval ls lqt 255 = true ↔ ls.lq.toNat ≤ lqt.toNat ∨ ls.rssi = 255 := by
  have hrssi : (255 : Byte).toNat ≤ ls.rssi.toNat ↔ ls.rssi = 255 := by bv_omega
  rw [fsEval_eq_true_iff, hrssi]

/-! ### What changes the flag (R211, R214) -/

/-- FEED alone reaches `failsafe`: the multiplexer's commands stay in their own part, and every other instruction writes
one element that is not the flag. -/
theorem exec_failsafe_of_ne_feed {i : Instr} {s t : State} (hi : ∀ b, i ≠ .feed b) (h : exec i s = .next t) :
    t.failsafe = s.failsafe := by
  cases i with
  | feed b => exact absurd rfl (hi b)
  | setbat | setcus | poll =>
    obtain ⟨o, ht, -⟩ := (exec_confined_to_mux _ (by simp)).of_agree (s' := s) rfl rfl h
    rw [ht]
    rfl
  | wReserved => cases h
  | dreset | setlqt | setrst | crc | illegal | wReset | wU8 | wS8 | wU16 | wS16 | wU24 | wS24 | wU32 | wS32 | wPatch =>
    cases h
    rfl

/-- A step keeps `failsafe`, or it is a FEED that dispatches a link-statistics frame. -/
theorem exec_failsafe {i : Instr} {s t : State} (h : exec i s = .next t) :
    t.failsafe = s.failsafe ∨ ∃ b o, i = .feed b ∧ t.outputs = s.outputs ++ [o] ∧ o.response.code = .frameLink := by
  by_cases hkeep : t.failsafe = s.failsafe
  · exact .inl hkeep
  · by_cases hi : ∃ b, i = .feed b
    · obtain ⟨b, rfl⟩ := hi
      obtain ⟨o, ht, -, -, -, -, heffect⟩ := execFeed_next b s t h
      exact .inr ⟨b, o, rfl, congrArg State.outputs ht, heffect.code_of_failsafe_ne hkeep⟩
    · exact absurd (exec_failsafe_of_ne_feed (not_exists.mp hi) h) hkeep

/-! ### The step that emits a link event (R211) -/

theorem link_notMem_failsafeEvents (ls : LinkStats) (old new : Bool) : .link ls ∉ failsafeEvents old new := by
  unfold failsafeEvents
  split <;> simp

/-- A FEED that emits a link event has computed `failsafe` from that event's record, and emits the edge after it. -/
theorem FeedEffect.failsafe_of_link {s t : State} {o : StepOutput} {ls : LinkStats} (h : FeedEffect s t o)
    (hls : .link ls ∈ o.events) :
    t.failsafe = fsEval ls s.lqThr s.rssiThr ∧ o.events = .link ls :: failsafeEvents s.failsafe t.failsafe := by
  cases h with
  | quiet he => simp [he] at hls
  | rc he => simp [he] at hls
  | link ls' he _ hf =>
    have heq : ls = ls' := by simpa [he, link_notMem_failsafeEvents] using hls
    rw [heq]
    exact ⟨hf, he⟩

/-- A link event comes from a FEED. -/
theorem CommandOutput.feedEffect_of_link {s t : State} {i : Instr} {o : StepOutput} {ls : LinkStats}
    (h : CommandOutput s t i o) (hls : .link ls ∈ o.events) : FeedEffect s t o := by
  cases h with
  | feed b o _ _ _ heffect => exact heffect
  | dreset | setlqt | setrst | setbat | setcus | pollNone | pollKind | crc | illegal => cases hls

end Sys2Proof.Machine

open Sys2Proof Sys2Proof.Machine in
/-- Settles O47: only a dispatched link-statistics frame moves the flag, and a step that emits a link event has the
comparator's value for that record and the edge's event. -/
theorem failsafeIsEdgeTriggered : Obligations.FailsafeIsEdgeTriggered := by
  refine fun i s t h => ⟨exec_failsafe h, fun o ls ho hls => ?_⟩
  obtain ⟨hf, hevents⟩ := ((commandOutput_of_outputs h ho).feedEffect_of_link hls).failsafe_of_link hls
  refine ⟨?_, hevents⟩
  rw [hf, fsEval_eq_true_iff]

open Sys2Proof Sys2Proof.Machine in
/-- Settles O46: the setters' meanings, and the comparator at each threshold's two extremes. -/
theorem thresholdSettersWriteOnlyTheirThreshold : Obligations.ThresholdSettersWriteOnlyTheirThreshold :=
  fun _ _ ls y => ⟨rfl, rfl, rfl, rfl, fsEval_lqt_max ls y, fsEval_rst_zero ls y, fsEval_lqt_zero_iff ls y,
    fsEval_rst_max_iff ls y⟩
end

/-! ## The telemetry setters and POLL (45_telemetry_mux.md R225 to R229) -/

section
namespace Sys2Proof.Machine

/-! ### Big-endian operands (R226) -/

/-- A value's big-endian bytes, each cut out of the value. -/
theorem bigEndian_toNat {w : Nat} (n : Nat) (v : BitVec w) :
    bigEndian n v.toNat = (List.range n).map fun j => byteOf v (n - 1 - j) := by
  simp only [bigEndian, byteOf_eq]

/-! ### SETCUS (R227) -/

/-- The telemetry table an accepted SETCUS leaves. -/
def Telemetry.storeCustom (tel : Telemetry) (data : List Byte) (h : data.length < 61) : Telemetry :=
  { tel with cusLen := ⟨data.length, h⟩, cusData := putBytes tel.cusData 0 data, pending := tel.pending.set 1 true }

theorem Telemetry.storeCustom_cusData (tel : Telemetry) (data : List Byte) (h : data.length < 61) (j : Nat) (hj : j < 60) :
    (tel.storeCustom data h).cusData[j] = if j < data.length then data.getD j 0 else tel.cusData[j] := by
  rw [show (tel.storeCustom data h).cusData = putBytes tel.cusData 0 data from rfl, putBytes_getElem _ _ _ _ hj]
  simp only [Nat.zero_le, true_and, Nat.zero_add, Nat.sub_zero]

theorem exec_setcus_accepted (data : List Byte) (s : State) (h : data.length < 61) :
    exec (.setcus data) s = .next ({ s with tel := s.tel.storeCustom data h }.respond (reply .ack)) := dif_pos h

theorem exec_setcus_rejected (data : List Byte) (s : State) (h : ¬data.length < 61) :
    exec (.setcus data) s = .next (s.respond (reply .reject)) := dif_neg h

/-! ### The scan (R229) -/

theorem Telemetry.nextKind_eq_none {tel : Telemetry} (h : ∀ k : Kind, tel.pending[k] = false) : tel.nextKind = none := by
  simp [nextKind_eq, h]

theorem Telemetry.Serves.nextKind_eq_some {tel : Telemetry} {k : Kind} (h : tel.Serves k) : tel.nextKind = some k := by
  obtain ⟨hpending, hfirst⟩ := h
  rw [nextKind_eq]
  by_cases hk : k = tel.muxCursor
  · subst hk
    exact if_pos hpending
  · have hcursor : tel.pending[tel.muxCursor] = false := hfirst.resolve_left hk
    have hnext : k = tel.muxCursor + 1 := (kind_eq_or_eq_add_one k tel.muxCursor).resolve_left hk
    subst hnext
    rw [if_neg (Bool.eq_false_iff.mp hcursor)]
    exact if_pos hpending

/-- With any kind pending the scan finds one. -/
theorem Telemetry.exists_serves {tel : Telemetry} (h : ∃ k : Kind, tel.pending[k] = true) : ∃ k : Kind, tel.Serves k := by
  obtain ⟨j, hj⟩ := h
  cases hk : tel.nextKind with
  | none => simp [Telemetry.not_pending_of_nextKind_none hk j] at hj
  | some k => exact ⟨k, Telemetry.serves_of_nextKind_some hk⟩

/-! ### The frame's micro-ops (R228) -/

@[simp] theorem Telemetry.payload_length (tel : Telemetry) (k : Kind) :
    (tel.payload k).length = if k = 0 then 8 else tel.cusLen.val := by
  unfold Telemetry.payload
  split
  · rfl
  · exact packCus_length tel.cusLen tel.cusData

theorem State.withWriter_withWriter (s : State) (f g : Writer → Writer) :
    (s.withWriter f).withWriter g = s.withWriter fun w => g (f w) := rfl

/-- One W_U8 a byte, executed, is `appendBytes` on the writer. -/
theorem execAll_wU8 (bytes : List Byte) (s : State) :
    execAll (bytes.map fun b => .wU8 (b.setWidth 32)) s = .next (s.withWriter (·.appendBytes bytes)) := by
  induction bytes generalizing s with
  | nil => rfl
  | cons b bs ih => exact ih (s.withWriter (.append 1 (b.setWidth 32)))

/-- The micro-ops of the frame's head, executed, are `header` on the writer. -/
theorem execAll_header (k : Kind) (s : State) :
    execAll [.wReset, .wU8 0xC8, .wU8 0x00, .wU8 (if k = 0 then 0x08 else 0x7F)] s = .next (s.withWriter (.header k)) := by
  have htype : (if k = 0 then 0x08 else 0x7F) = (frameType k).setWidth 32 := by decide +revert
  rw [htype]
  rfl

/-- The micro-ops up to W_PATCH, executed, leave head and payload in the writer and change nothing else. -/
theorem execAll_frameOps (tel : Telemetry) (k : Kind) (s : State) :
    execAll (frameOps tel k) s = .next (s.withWriter fun w => (w.header k).appendPayload tel k) := by
  rw [frameOps, execAll_append _ _ _ _ (execAll_header k s)]
  split
  case isTrue hk =>
    simp only [execAll, exec, execWU16, execWU24, execWU8, State.withWriter_withWriter, Writer.appendPayload, if_pos hk]
  case isFalse hk =>
    rw [execAll_wU8, State.withWriter_withWriter]
    simp only [Writer.appendPayload, if_neg hk, packCus]

/-- The bytes the CRC covers: the writer's content from index a on is `txbuf[a..wr_cursor-1]`. -/
theorem Writer.content_drop (w : Writer) (a : Nat) (h : 0 < w.cursor.val) :
    w.content.drop a = slice w.txbuf a (w.cursor.val - 1) := by
  rw [slice_eq_drop_take, Nat.sub_add_cancel h, Writer.content]

/-- The frame's end as the two micro-ops W_PATCH and W_U8, the CRC read from the buffer after the patch. -/
theorem exec_finish (s : State) (h : 1 < s.wr.cursor.val) : ∃ t,
    exec (.wPatch 1 (BitVec.ofNat 32 (s.wr.cursor.val - 1))) s = .next t ∧
      exec (.wU8 ((crc8 (slice t.wr.txbuf 2 (t.wr.cursor.val - 1))).setWidth 32)) t = .next (s.withWriter .finish) := by
  refine ⟨s.withWriter (.patch 1 (BitVec.ofNat 32 (s.wr.cursor.val - 1))), rfl, ?_⟩
  obtain ⟨hcursor, -⟩ := s.wr.patch_below 1 (BitVec.ofNat 32 (s.wr.cursor.val - 1)) h
  rw [← Writer.content_drop _ 2 (by rw [State.withWriter_wr, hcursor]; omega)]
  rfl

/-! ### POLL (R229) -/

/-- A POLL transmits the content of the writer it leaves. -/
theorem exec_poll_serves {s : State} {k : Kind} (h : s.tel.Serves k) :
    exec .poll s = .next ({ s with wr := buildFrame s.tel k s.wr, tel := { s.tel with muxCursor := k + 1 } }.respond
      ⟨⟨pollCode k, 0⟩, [], (buildFrame s.tel k s.wr).content⟩) := by
  rw [(buildFrame_spec s.tel k s.wr).1]
  exact execPoll_some s k h.nextKind_eq_some

end Sys2Proof.Machine

open Sys2Proof Sys2Proof.Machine in
/-- Settles O50: the operand bytes are the fields' big-endian bytes, and `execSetbat` writes exactly these fields. -/
theorem setbatStoresTheBatteryValue : Obligations.SetbatStoresTheBatteryValue := by
  refine fun v c k p s => ⟨?_, rfl⟩
  simp only [bigEndian_toNat]
  rfl

open Sys2Proof Sys2Proof.Machine in
/-- Settles O51: the accepted list is written over the front of `cus_data`, the rejected one only answered. -/
theorem setcusStoresOrRejects : Obligations.SetcusStoresOrRejects := by
  refine fun d s => ⟨rfl, fun hd => ?_, fun hd => exec_setcus_rejected d s (by omega)⟩
  have hlen : d.length < 61 := by omega
  exact ⟨s.tel.storeCustom d hlen, exec_setcus_accepted d s hlen, rfl, s.tel.storeCustom_cusData d hlen, rfl⟩

open Sys2Proof Sys2Proof.Machine in
/-- Settles O52: the scan finds the served kind, and `build_frame` is the micro-ops of its head and payload, then W_PATCH
and the CRC's W_U8. -/
theorem pollServesTheNextPendingKind : Obligations.PollServesTheNextPendingKind := by
  refine fun s => ⟨rfl, fun hnone => execPoll_none s (Telemetry.nextKind_eq_none hnone), fun k hk => ?_,
    Telemetry.exists_serves⟩
  obtain ⟨hheader, -⟩ := s.wr.header_spec k
  obtain ⟨hcursor, -⟩ := (s.wr.header k).appendPayload_spec s.tel k hheader
  rw [Telemetry.payload_length] at hcursor
  obtain ⟨v, hpatch, hcrc⟩ := exec_finish (s.withWriter fun w => (w.header k).appendPayload s.tel k)
    (by rw [State.withWriter_wr, hcursor]; omega)
  exact ⟨_, v, _, execAll_frameOps s.tel k s, hpatch, hcrc, exec_poll_serves hk, hcursor,
    (buildFrame_spec s.tel k s.wr).2.2⟩
end

/-! ## Power-on reset (70_reset_and_hazards.md R270) -/

section
namespace Sys2Proof.Machine

/-! ### The stores of the reset state (10_state.md R40): every entry holds the store's reset value -/

@[simp] theorem State.reset_rxbuf_getElem (j : Nat) (h : j < 64) : State.reset.dec.rxbuf[j] = 0 :=
  Vector.getElem_replicate h

@[simp] theorem State.reset_chan_getElem (j : Nat) (h : j < 16) : State.reset.chan[j] = 0 :=
  Vector.getElem_replicate h

@[simp] theorem State.reset_pending_getElem (k : Kind) : State.reset.tel.pending[k] = false :=
  Vector.getElem_replicate k.isLt

@[simp] theorem State.reset_cusData_getElem (j : Nat) (h : j < 60) : State.reset.tel.cusData[j] = 0 :=
  Vector.getElem_replicate h

@[simp] theorem State.reset_txbuf_getElem (j : Nat) (h : j < 64) : State.reset.wr.txbuf[j] = 0 :=
  Vector.getElem_replicate h

end Sys2Proof.Machine

open Sys2Proof Sys2Proof.Machine in
/-- Settles O1: the scalar elements are read off `State.reset`, the stores entry by entry, and power-on reset replaces
every engine element, whatever the state was. -/
theorem powerOnResetSetsEveryElement : Obligations.PowerOnResetSetsEveryElement :=
  ⟨⟨rfl, rfl, rfl, State.reset_rxbuf_getElem, State.reset_chan_getElem, rfl, rfl, rfl, State.reset_pending_getElem,
      rfl, rfl, rfl, rfl, rfl, State.reset_cusData_getElem, rfl, State.reset_txbuf_getElem, rfl, rfl⟩,
    fun s => ⟨s.powerOnReset_dec, s.powerOnReset_chan, s.powerOnReset_failsafe, s.powerOnReset_lqThr,
      s.powerOnReset_rssiThr, s.powerOnReset_tel, s.powerOnReset_wr⟩⟩
end

/-! ## The decoder against the encoder (30_encoding.md R81 to R88) -/

section
namespace Sys2Proof

/-! ### The bytes of a big-endian field (R84) -/

theorem byteOf_be16 (hi lo : Byte) : byteOf (be16 hi lo) 1 = hi ∧ byteOf (be16 hi lo) 0 = lo := by
  unfold byteOf be16
  constructor <;> ext k hk <;> simp <;> grind

theorem byteOf_be24 (b2 b1 b0 : Byte) :
    byteOf (be24 b2 b1 b0) 2 = b2 ∧ byteOf (be24 b2 b1 b0) 1 = b1 ∧ byteOf (be24 b2 b1 b0) 0 = b0 := by
  unfold byteOf be24
  refine ⟨?_, ?_, ?_⟩ <;> ext k hk <;> simp <;> grind

/-! ### What each format decodes, byte for byte -/

theorem eq_of_decodeF1 {mk : Byte → Instr} {bs rest : List Byte} {i : Instr} (h : decodeF1 mk bs = .ok (i, rest)) :
    ∃ b, i = mk b ∧ bs = b :: rest := by
  cases bs with
  | nil => cases h
  | cons b bs => cases h; exact ⟨b, rfl, rfl⟩

theorem eq_of_decodeF8 {bs rest : List Byte} {i : Instr} (h : decodeF8 bs = .ok (i, rest)) :
    ∃ v c k p, i = .setbat v c k p ∧
      bs = [byteOf v 1, byteOf v 0, byteOf c 1, byteOf c 0, byteOf k 2, byteOf k 1, byteOf k 0, p] ++ rest := by
  unfold decodeF8 at h
  split at h
  case h_1 => cases h; exact ⟨_, _, _, _, rfl, by simp [byteOf_be16, byteOf_be24]⟩
  case h_2 => cases h

theorem eq_of_decodeFN {mk : List Byte → Instr} {bs rest : List Byte} {i : Instr}
    (h : decodeFN mk bs = .ok (i, rest)) :
    ∃ data, data.length ≤ 255 ∧ i = mk data ∧ bs = BitVec.ofNat 8 data.length :: data ++ rest := by
  cases bs with
  | nil => cases h
  | cons n bs =>
    rw [decodeFN] at h
    split at h
    case isTrue => cases h
    case isFalse hlen =>
      cases h
      have htake : (bs.take n.toNat).length = n.toNat := List.length_take_of_le (Nat.le_of_not_lt hlen)
      have hcount : n.toNat ≤ 255 := Nat.le_of_lt_succ n.isLt
      exact ⟨_, by rwa [htake], rfl, by rw [htake, BitVec.ofNat_toNat, BitVec.setWidth_eq]; simp⟩

/-- What the decoder reads is the encoding of the well-formed command it answers. -/
theorem encode_of_decodeCommand {bs rest : List Byte} {i : Instr} (h : decodeCommand bs = .ok (i, rest)) :
    i.wellFormed = true ∧ ∃ bytes, encode i = .command bytes ∧ bs = bytes ++ rest := by
  cases bs with
  | nil => cases h
  | cons op bs =>
    obtain rfl | rfl | rfl | rfl | rfl | rfl | rfl | rfl | hop := opcode_cases op
    · obtain ⟨b, rfl, rfl⟩ := eq_of_decodeF1 h; exact ⟨rfl, _, rfl, rfl⟩
    · cases h; exact ⟨rfl, _, rfl, rfl⟩
    · obtain ⟨b, rfl, rfl⟩ := eq_of_decodeF1 h; exact ⟨rfl, _, rfl, rfl⟩
    · obtain ⟨b, rfl, rfl⟩ := eq_of_decodeF1 h; exact ⟨rfl, _, rfl, rfl⟩
    · obtain ⟨v, c, k, p, rfl, rfl⟩ := eq_of_decodeF8 h; exact ⟨rfl, _, rfl, rfl⟩
    · obtain ⟨data, hlen, rfl, rfl⟩ := eq_of_decodeFN h; exact ⟨decide_eq_true hlen, _, rfl, rfl⟩
    · cases h; exact ⟨rfl, _, rfl, rfl⟩
    · obtain ⟨data, hlen, rfl, rfl⟩ := eq_of_decodeFN h; exact ⟨decide_eq_true hlen, _, rfl, rfl⟩
    · rw [decodeCommand_illegal hop] at h
      cases h
      have hnat : op.toNat = 0 ∨ 9 ≤ op.toNat := by bv_omega
      exact ⟨by simpa [Instr.wellFormed, isIllegalOpcode] using hnat, _, rfl, rfl⟩

/-- The decoder gives a well-formed command back from its encoding, whatever follows. -/
theorem decodeCommand_of_encode {i : Instr} (hi : i.wellFormed = true) {bytes : List Byte}
    (h : encode i = .command bytes) (rest : List Byte) : decodeCommand (bytes ++ rest) = .ok (i, rest) := by
  cases i with
  | feed | dreset | setlqt | setrst | poll => cases h; rfl
  | setbat v c k p => cases h; exact decodeF8_encoded v c k p rest
  | setcus data => cases h; exact decodeFN_encoded .setcus data rest (of_decide_eq_true hi)
  | crc data => cases h; exact decodeFN_encoded .crc data rest (of_decide_eq_true hi)
  | illegal op =>
    cases h
    have hnat : op.toNat = 0 ∨ 9 ≤ op.toNat := by simpa [Instr.wellFormed, isIllegalOpcode] using hi
    exact decodeCommand_illegal (by bv_omega) rest
  | wReset | wU8 | wS8 | wU16 | wS16 | wU24 | wS24 | wU32 | wS32 | wPatch | wReserved => cases h

/-- A complete command is cut the same whatever follows it (R88). -/
theorem decodeCommand_append {bs rest : List Byte} {i : Instr} (h : decodeCommand bs = .ok (i, rest))
    (more : List Byte) : decodeCommand (bs ++ more) = .ok (i, rest ++ more) := by
  obtain ⟨hi, bytes, henc, rfl⟩ := encode_of_decodeCommand h
  rw [List.append_assoc]
  exact decodeCommand_of_encode hi henc _

/-! ### The control word (R94 to R96) -/

open Laws.DecodeEncode in
/-- The decoder gives a well-formed micro-op back from its control word. -/
theorem decodeControl_of_encode {i : Instr} (hi : i.wellFormed = true) {w : ControlWord} (h : encode i = .control w) :
    decodeControl w = i := by
  cases i with
  | feed | dreset | setlqt | setrst | setbat | setcus | poll | crc | illegal => cases h
  | wReset => cases h; exact wReset hi
  | wU8 d => cases h; exact wU8 d hi
  | wS8 d => cases h; exact wS8 d hi
  | wU16 d => cases h; exact wU16 d hi
  | wS16 d => cases h; exact wS16 d hi
  | wU24 d => cases h; exact wU24 d hi
  | wS24 d => cases h; exact wS24 d hi
  | wU32 d => cases h; exact wU32 d hi
  | wS32 d => cases h; exact wS32 d hi
  | wPatch k d => cases h; exact wPatch k d hi
  | wReserved wop => cases h; exact wReserved wop hi

theorem decodeControl_reserved {wop : BitVec 4} (hwop : 10 ≤ wop.toNat) (i : BitVec 6) (d : BitVec 32) :
    decodeControl (controlWord wop i d) = .wReserved wop := by
  simp only [decodeControl, wopOf_controlWord]
  split
  case h_11 => rfl
  all_goals omega

/-- The places of the control word's fields, as a number (R94). -/
theorem controlWord_toNat (o : BitVec 4) (i : BitVec 6) (d : BitVec 32) :
    (controlWord o i d).toNat = o.toNat * 2 ^ 44 + i.toNat * 2 ^ 38 + d.toNat := by
  have hzero : (0 : BitVec 6).toNat = 0 := rfl
  simp only [controlWord, BitVec.toNat_append, hzero, Nat.or_zero]
  rw [← Nat.shiftLeft_add_eq_or_of_lt i.isLt, ← Nat.shiftLeft_add_eq_or_of_lt d.isLt]
  simp only [Nat.shiftLeft_eq]
  omega

end Sys2Proof

open Sys2Proof Sys2Proof.Machine in
/-- Settles O10: a command by its format, a micro-op by its control word's fields. -/
theorem decodeOfEncodeIsTheInstruction : Obligations.DecodeOfEncodeIsTheInstruction := by
  intro i hi
  split
  case h_1 bytes henc => exact decodeCommand_of_encode hi henc
  case h_2 w henc => exact decodeControl_of_encode hi henc

open Sys2Proof Sys2Proof.Machine in
/-- Settles O11: the bytes are read back off the decoder's branches, format by format. -/
theorem decodedBytesAreTheEncoding : Obligations.DecodedBytesAreTheEncoding :=
  fun _ _ _ h => encode_of_decodeCommand h

open Sys2Proof Sys2Proof.Machine in
/-- Settles O9: twelve words, decoded. -/
theorem sampleWordsDecode : Obligations.SampleWordsDecode := by
  unfold Obligations.SampleWordsDecode
  decide

open Sys2Proof Sys2Proof.Machine in
/-- Settles O14: the fields' weights, and the micro-op each code selects whatever the other fields hold. -/
theorem controlWordSelectsTheMicroOp : Obligations.ControlWordSelectsTheMicroOp := by
  refine ⟨controlWord_toNat, fun i d => ?_⟩
  simp [decodeControl]
end

/-! ## Steps and runs of the command stream (30_encoding.md R80, R88, 70_reset_and_hazards.md R278) -/

section
namespace Sys2Proof.Machine

/-! ### One step -/

theorem step_of_decodeCommand {s : State} {i : Instr} {rest : List Byte} (hctl : s.ctl = none)
    (h : decodeCommand s.port = .ok (i, rest)) : step s = exec i { s with port := rest } := by
  simp only [step, fetch, hctl, h]

theorem step_of_control {s : State} {w : ControlWord} (hctl : s.ctl = some w) :
    step s = exec (decodeControl w) { s with ctl := none } := by
  simp only [step, fetch, hctl]

theorem step_of_incomplete {s : State} {why : Hold} (hctl : s.ctl = none) (h : decodeCommand s.port = .error why) :
    step s = .next s := by
  simp only [step, fetch, hctl, h, hold]

/-! ### The bytes of commands -/

theorem encode_eq_commandBytes {i : Instr} (hi : i.isCommand = true) : encode i = .command (commandBytes i) := by
  cases i with
  | feed | dreset | setlqt | setrst | setbat | setcus | poll | crc | illegal => rfl
  | wReset | wU8 | wS8 | wU16 | wS16 | wU24 | wS24 | wU32 | wS32 | wPatch | wReserved => cases hi

theorem commandBytes_length_pos {i : Instr} (hi : i.isCommand = true) : 0 < (commandBytes i).length := by
  cases i with
  | feed | dreset | setlqt | setrst | setbat | setcus | poll | crc | illegal => exact Nat.succ_pos _
  | wReset | wU8 | wS8 | wU16 | wS16 | wU24 | wS24 | wU32 | wS32 | wPatch | wReserved => cases hi

theorem commandsBytes_cons (i : Instr) (is : List Instr) :
    commandsBytes (i :: is) = commandBytes i ++ commandsBytes is :=
  List.flatMap_cons

/-- Every command takes at least one byte, so the stream has a step for each. -/
theorem length_le_commandsBytes {is : List Instr} (his : ∀ i ∈ is, i.isCommand = true) :
    is.length ≤ (commandsBytes is).length := by
  induction is with
  | nil => exact Nat.zero_le _
  | cons i is ih =>
    obtain ⟨hi, his⟩ := List.forall_mem_cons.mp his
    have hpos := commandBytes_length_pos hi
    have hle := ih his
    rw [commandsBytes_cons, List.length_append, List.length_cons]
    omega

/-- Cutting a command off the stream shortens it. -/
theorem decodeCommand_length_lt {bs rest : List Byte} {i : Instr} (h : decodeCommand bs = .ok (i, rest)) :
    rest.length < bs.length := by
  have hcmd := decodeCommand_isCommand bs i rest h
  obtain ⟨-, bytes, henc, rfl⟩ := encode_of_decodeCommand h
  rw [encode_eq_commandBytes hcmd] at henc
  cases henc
  have hpos := commandBytes_length_pos hcmd
  rw [List.length_append]
  omega

/-! ### What waits on the port does not change what a command does -/

/-- A command completes, or is a FEED that leaves `rxbuf` (log 6); it is never refused. -/
theorem exec_next_or_fault {i : Instr} (hi : i.isCommand = true) (s : State) :
    (∃ t, exec i s = .next t) ∨ exec i s = .fault .rxIndex := by
  cases i with
  | feed b =>
    cases hst : s.dec.state with
    | awaitSync => rw [exec_feed_awaitSync hst, feedSync]; split <;> exact .inl ⟨_, rfl⟩
    | awaitLength => rw [exec_feed_awaitLength hst, feedLength]; split <;> exact .inl ⟨_, rfl⟩
    | accumulate =>
      rw [exec_feed_accumulate hst, feedAccumulate]
      split
      · exact .inl ⟨_, rfl⟩
      · exact .inr rfl
    | awaitCrc =>
      by_cases hlen : s.dec.len.toNat < 64
      · rw [exec_feed_awaitCrc hst, feedCrc_eq b s hlen]
        exact .inl ⟨_, rfl⟩
      · rw [exec_feed_awaitCrc hst, feedCrc, if_neg hlen]
        exact .inr rfl
  | poll =>
    cases hk : s.tel.nextKind with
    | none => exact .inl ⟨_, execPoll_none s hk⟩
    | some k => exact .inl ⟨_, execPoll_some s k hk⟩
  | setcus data =>
    by_cases hlen : data.length < 61
    · exact .inl ⟨_, exec_setcus_accepted data s hlen⟩
    · exact .inl ⟨_, exec_setcus_rejected data s hlen⟩
  | dreset | setlqt | setrst | setbat | crc | illegal => exact .inl ⟨_, rfl⟩
  | wReset | wU8 | wS8 | wU16 | wS16 | wU24 | wS24 | wU32 | wS32 | wPatch | wReserved => cases hi

/-- A command faults with one port exactly if it faults with another. -/
theorem exec_fault_port {i : Instr} (hi : i.isCommand = true) (s : State) (p : List Byte)
    (h : exec i s = .fault .rxIndex) : exec i { s with port := p } = .fault .rxIndex := by
  obtain ⟨t, ht⟩ | hfault := exec_next_or_fault hi { s with port := p }
  · have hnext := exec_port i { s with port := p } t s.port ht
    rw [h] at hnext
    cases hnext
  · exact hfault

/-! ### Runs -/

/-- Steps enough for every command on the port execute them in order; the incomplete command behind them stays. -/
theorem stepN_eq_execAll {is : List Instr} {tail : List Byte} {why : Hold}
    (his : ∀ i ∈ is, i.wellFormed = true ∧ i.isCommand = true) (htail : decodeCommand tail = .error why)
    {n : Nat} (hn : is.length ≤ n) {s : State} (hctl : s.ctl = none) (hport : s.port = commandsBytes is ++ tail) :
    stepN n s = execAll is { s with port := tail } := by
  induction is generalizing n s with
  | nil =>
    have hs : { s with port := tail } = s := congrArg (fun p => { s with port := p }) hport.symm
    rw [execAll, hs]
    exact stepN_hold n s why hctl (hport ▸ htail)
  | cons i is ih =>
    obtain ⟨⟨hwf, hcmd⟩, his⟩ := List.forall_mem_cons.mp his
    obtain ⟨n, rfl⟩ : ∃ m, n = m + 1 := Nat.exists_eq_succ_of_ne_zero (by rintro rfl; simp at hn)
    have hdec : decodeCommand s.port = .ok (i, commandsBytes is ++ tail) := by
      rw [hport, commandsBytes_cons, List.append_assoc]
      exact decodeCommand_of_encode hwf (encode_eq_commandBytes hcmd) _
    rw [stepN, step_of_decodeCommand hctl hdec, execAll]
    obtain ⟨t, ht⟩ | hfault := exec_next_or_fault hcmd { s with port := tail }
    · have hkeep := exec_keeps_port i _ t ht
      have hnext := exec_port i _ t (commandsBytes is ++ tail) ht
      have hback : { t with port := tail } = t := congrArg (fun p => { t with port := p }) hkeep.1.symm
      have hrun := ih his (Nat.le_of_succ_le_succ hn) (s := { t with port := commandsBytes is ++ tail })
        (hkeep.2.trans hctl) rfl
      simp only [ht, hnext, hrun, hback]
    · have hfault' := exec_fault_port hcmd _ (commandsBytes is ++ tail) hfault
      simp only [hfault, hfault']

end Sys2Proof.Machine

open Sys2Proof Sys2Proof.Machine in
/-- Settles O5: the two sources of `fetch`, and the hold. -/
theorem stepRunsTheFetchedInstruction : Obligations.StepRunsTheFetchedInstruction :=
  ⟨fun _ _ _ => step_of_decodeCommand, fun _ _ => step_of_control, fun _ _ => step_of_incomplete⟩

open Sys2Proof Sys2Proof.Machine in
/-- Settles O6: a complete command is cut the same with more bytes behind it, an incomplete one holds until then. -/
theorem heldCommandRunsOnceComplete : Obligations.HeldCommandRunsOnceComplete := by
  refine ⟨fun bs more i rest h => decodeCommand_append h more, fun s more why i rest hctl hhold hdec => ?_⟩
  exact ⟨step_of_incomplete hctl hhold, step_of_decodeCommand (s := s.present more) hctl hdec⟩

open Sys2Proof Sys2Proof.Machine in
/-- Settles O7: by induction over the commands; the port has at least one byte, so one step, for each of them. -/
theorem streamRunsItsCommandsInOrder : Obligations.StreamRunsItsCommandsInOrder := by
  intro s is tail why his hctl hport htail
  have hsteps : is.length ≤ s.port.length := by
    have hle := length_le_commandsBytes fun i hi => (his i hi).2
    rw [hport, List.length_append]
    omega
  exact stepN_eq_execAll his htail hsteps hctl hport
end

/-! ## The machine's invariant (10_state.md R38, 60_exceptions.md R251) -/

section
namespace Sys2Proof.Machine

/-! ### The decoder back in AWAIT_SYNC -/

theorem Decoder.toAwaitSync_inv (d : Decoder) : d.toAwaitSync.Inv := by
  refine ⟨fun _ => ⟨rfl, rfl⟩, ?_, ?_, ?_⟩ <;> rintro ⟨⟩

/-- In a legal decoder state AWAIT_SYNC has index and length 0. -/
theorem State.atSync_of_inv {s : State} (h : s.dec.Inv) (hst : s.dec.state = .awaitSync) : s.AtSync := by
  obtain ⟨hsync, -⟩ := h
  exact ⟨hst, hsync hst⟩

theorem execFeed_dec_inv {b : Byte} {s t : State} (hinv : s.dec.Inv) (h : execFeed b s = .next t) : t.dec.Inv := by
  obtain ⟨t', ht', hinv'⟩ := execFeed_inv b s hinv
  rw [h] at ht'
  cases ht'
  exact hinv'

/-- After any outcome but PROGRESS the decoder waits for a sync byte (42_frame_decoder.md R159). -/
theorem exec_feed_atSync {b : Byte} {s t : State} {o : StepOutput} (hinv : s.dec.Inv) (h : exec (.feed b) s = .next t)
    (ho : t.outputs = s.outputs ++ [o]) (hcode : o.response.code ≠ .progress) : t.AtSync := by
  obtain ⟨o', ht, -, -, -, hstate, -⟩ := execFeed_next b s t h
  have ho' : t.outputs = s.outputs ++ [o'] := congrArg State.outputs ht
  cases List.append_cancel_left (ho'.symm.trans ho)
  exact State.atSync_of_inv (execFeed_dec_inv hinv h) (hstate.resolve_left hcode)

theorem lt_pollCode_toByte (k : Kind) : 7 < (pollCode k).toByte.toNat := by
  decide +revert

/-- The decode outcomes, codes 0x00 to 0x07, are FEED's alone (30_encoding.md R90, R91). -/
theorem CommandOutput.eq_feed {s t : State} {i : Instr} {o : StepOutput} (h : CommandOutput s t i o)
    (hcode : o.response.code.toByte.toNat ≤ 7) : ∃ b, i = .feed b := by
  cases h with
  | feed b => exact ⟨b, rfl⟩
  | setcus data => exact absurd hcode (by rw [reply_response]; split <;> decide)
  | pollKind k => exact absurd hcode (Nat.not_le.mpr (lt_pollCode_toByte k))
  | crc => exact absurd hcode (show ¬RespCode.crcResult.toByte.toNat ≤ 7 by decide)
  | illegal => exact absurd hcode (show ¬RespCode.illegal.toByte.toNat ≤ 7 by decide)
  | dreset | setlqt | setrst | setbat | pollNone => exact absurd hcode (by decide)

/-! ### Each step keeps the invariant -/

/-- A command keeps the invariant: FEED by its own law, DRESET by the decoder's reset, POLL since `build_frame` never
overflows; the others do not touch the decoder, `wr_ovf` or the bus. -/
theorem exec_keeps_inv {i : Instr} {s t : State} (hi : i.isCommand = true) (hinv : s.Inv) (h : exec i s = .next t) :
    t.Inv := by
  obtain ⟨hdec, hovf, hctl⟩ := hinv
  cases i with
  | feed b =>
    obtain ⟨o, ht, -⟩ := execFeed_next b s t h
    refine ⟨execFeed_dec_inv hdec h, ?_, ?_⟩ <;> rw [ht]
    · exact hovf
    · exact hctl
  | dreset => cases h; exact ⟨s.dec.toAwaitSync_inv, hovf, hctl⟩
  | poll =>
    cases hk : s.tel.nextKind with
    | none => rw [show exec .poll s = _ from execPoll_none s hk] at h; cases h; exact ⟨hdec, hovf, hctl⟩
    | some k =>
      rw [show exec .poll s = _ from execPoll_some s k hk] at h
      cases h
      obtain ⟨-, -, hframe⟩ := buildFrame_spec s.tel k s.wr
      exact ⟨hdec, hframe, hctl⟩
  | setcus data =>
    by_cases hlen : data.length < 61
    · rw [exec_setcus_accepted data s hlen] at h; cases h; exact ⟨hdec, hovf, hctl⟩
    · rw [exec_setcus_rejected data s hlen] at h; cases h; exact ⟨hdec, hovf, hctl⟩
  | setlqt | setrst | setbat | crc | illegal => cases h; exact ⟨hdec, hovf, hctl⟩
  | wReset | wU8 | wS8 | wU16 | wS16 | wU24 | wS24 | wU32 | wS32 | wPatch | wReserved => cases hi

/-- Every step from a legal state answers a legal one. -/
theorem step_keeps_inv {s t : State} (hinv : s.Inv) (h : step s = .next t) : t.Inv := by
  have ⟨_, _, hctl⟩ := hinv
  obtain ⟨i, rest, -, hcmd, hstep⟩ | ⟨why, -, hstep⟩ := step_cases s hctl
  · exact exec_keeps_inv (s := { s with port := rest }) hcmd hinv (hstep.symm.trans h)
  · cases hstep.symm.trans h
    exact hinv

/-- A command from a legal state completes, in a legal state. -/
theorem exec_legal {i : Instr} {s : State} (hi : i.isCommand = true) (hinv : s.Inv) :
    ∃ t, exec i s = .next t ∧ t.Inv := by
  have ⟨hdec, _⟩ := hinv
  obtain ⟨t, ht⟩ := exec_completes i s hi hdec
  exact ⟨t, ht, exec_keeps_inv hi hinv ht⟩

/-- Steps enough for every byte on the port end in a legal state with no complete command left. -/
theorem stepN_legal (n : Nat) {s : State} (hinv : s.Inv) (hn : s.port.length ≤ n) :
    ∃ t why, stepN n s = .next t ∧ t.Inv ∧ decodeCommand t.port = .error why := by
  induction n generalizing s with
  | zero =>
    have hport : s.port = [] := List.length_eq_zero_iff.mp (Nat.le_zero.mp hn)
    exact ⟨s, .noOpcode, rfl, hinv, by rw [hport]; rfl⟩
  | succ n ih =>
    have ⟨_, _, hctl⟩ := hinv
    obtain ⟨i, rest, hdec, hcmd, hstep⟩ | ⟨why, hhold, -⟩ := step_cases s hctl
    · obtain ⟨t, ht, hlegal⟩ := exec_legal (s := { s with port := rest }) hcmd hinv
      have hport : t.port = rest := (exec_keeps_port i _ t ht).1
      have hshort := decodeCommand_length_lt hdec
      rw [stepN, hstep, ht]
      exact ih hlegal (by rw [hport]; omega)
    · exact ⟨s, why, stepN_hold _ s why hctl hhold, hinv, hhold⟩

/-! ### The writer's bus (30_encoding.md R94, R96) -/

theorem step_keeps_ctl_none {s t : State} (hctl : s.ctl = none) (h : step s = .next t) : t.ctl = none := by
  obtain ⟨i, rest, -, -, hstep⟩ | ⟨why, -, hstep⟩ := step_cases s hctl
  · exact (exec_keeps_port i _ t (hstep.symm.trans h)).2.trans hctl
  · cases hstep.symm.trans h
    exact hctl

/-- The encoder issues no reserved micro-op. -/
theorem frameOps_ne_reserved {tel : Telemetry} {k : Kind} {i : Instr} (hi : i ∈ frameOps tel k) (wop : BitVec 4) :
    i ≠ .wReserved wop := by
  rintro rfl
  unfold frameOps at hi
  split at hi <;> simp [-List.map_take] at hi

end Sys2Proof.Machine

open Sys2Proof Sys2Proof.Machine in
/-- Settles O2: the reset state, evaluated. -/
theorem resetStateIsLegal : Obligations.ResetStateIsLegal := by
  unfold Obligations.ResetStateIsLegal
  decide

open Sys2Proof Sys2Proof.Machine in
/-- Settles O3: command by command, and a hold changes nothing. -/
theorem stepKeepsTheInvariant : Obligations.StepKeepsTheInvariant :=
  fun _ _ => step_keeps_inv

open Sys2Proof Sys2Proof.Machine in
/-- Settles O38: the outcome of a FEED and the invariant of the state it leaves. -/
theorem onlyProgressLeavesAwaitSync : Obligations.OnlyProgressLeavesAwaitSync :=
  fun _ _ _ _ => exec_feed_atSync

open Sys2Proof Sys2Proof.Machine in
/-- Settles O4: a command completes and a hold answers the same state; the failures are outcomes of a FEED. -/
theorem noErrorStopsTheEngine : Obligations.NoErrorStopsTheEngine := by
  intro s hinv
  have ⟨hdec, _, hctl⟩ := hinv
  obtain ⟨i, rest, -, hcmd, hstep⟩ | ⟨why, -, hstep⟩ := step_cases s hctl
  · obtain ⟨t, ht⟩ := exec_completes i { s with port := rest } hcmd hdec
    refine ⟨t, hstep.trans ht, fun o ho hfail => ?_⟩
    have hcode : o.response.code.toByte.toNat ≤ 7 ∧ o.response.code ≠ .progress := by
      revert hfail
      generalize o.response.code = code
      cases code <;> decide
    obtain ⟨b, rfl⟩ := (commandOutput_of_outputs ht ho).eq_feed hcode.1
    exact exec_feed_atSync (s := { s with port := rest }) hdec ht ho hcode.2
  · exact ⟨s, hstep, fun o ho => absurd ho (by simp)⟩

open Sys2Proof Sys2Proof.Machine in
/-- Settles O8: by induction over the bytes on the port; each command's step is legal and shortens the port. -/
theorem anyStreamRunsToItsEnd : Obligations.AnyStreamRunsToItsEnd :=
  fun s bytes hinv => stepN_legal (s := s.present bytes) _ hinv le_rfl

open Sys2Proof Sys2Proof.Machine in
/-- Settles O15: the decoder and `exec` on a reserved code, the bus and POLL on every state. -/
theorem reservedMicroOpsAreRefused : Obligations.ReservedMicroOpsAreRefused := by
  refine ⟨fun wop i d s hwop => ⟨decodeControl_reserved hwop i d, rfl⟩, fun s t => step_keeps_ctl_none,
    fun tel k i hi => frameOps_ne_reserved hi, fun s => ?_⟩
  cases hk : s.tel.nextKind with
  | none => exact ⟨_, execPoll_none s hk⟩
  | some k => exact ⟨_, execPoll_some s k hk⟩

open Sys2Proof Sys2Proof.Machine in
/-- Settles O58: only entry k of the bank is written, with that engine's own next state. -/
theorem enginesAreIndependent : Obligations.EnginesAreIndependent := by
  intro k bank bank' h
  unfold stepAt at h
  cases hs : bank[k]? with
  | none =>
    rw [hs] at h
    cases h
    exact ⟨rfl, fun j _ => rfl, fun s hsome => by cases hsome⟩
  | some s =>
    cases hstep : step s with
    | next t =>
      simp only [hs, hstep] at h
      cases h
      refine ⟨List.length_set, fun j hj => List.getElem?_set_ne hj.symm, fun s' hs' => ?_⟩
      cases hs'
      have hk : k < bank.length := (List.getElem?_eq_some_iff.mp hs).1
      exact ⟨t, hstep, List.getElem?_set_self hk⟩
    | fault r => simp only [hs, hstep] at h; cases h
    | refused r => simp only [hs, hstep] at h; cases h
end

/-! ## CRC8 as a linear code (40_crc8.md R112, R115, R116) -/

section
namespace Sys2Proof.Machine

/-- The table-driven update run over a list, from any register value. -/
def crc8From (c : Byte) (d : List Byte) : Byte := d.foldl (fun c x => crcTab (c ^^^ x)) c

theorem crc8_eq_crc8From (d : List Byte) : crc8 d = crc8From 0 d := BitVec.xor_zero

theorem crc8From_cons (c x : Byte) (d : List Byte) : crc8From c (x :: d) = crc8From (crcTab (c ^^^ x)) d := rfl

/-- Register and list together are linear over exclusive or. -/
theorem crc8From_xor (c c' : Byte) (d e : List Byte) (h : d.length = e.length) :
    crc8From (c ^^^ c') (List.zipWith (· ^^^ ·) d e) = crc8From c d ^^^ crc8From c' e := by
  induction d generalizing c c' e with
  | nil =>
    obtain rfl : e = [] := List.length_eq_zero_iff.mp h.symm
    rfl
  | cons x d ih =>
    obtain ⟨y, e, rfl⟩ : ∃ y e', e = y :: e' := List.exists_cons_of_length_eq_add_one h.symm
    have hxor : c ^^^ c' ^^^ (x ^^^ y) = (c ^^^ x) ^^^ (c' ^^^ y) := by ac_rfl
    rw [List.zipWith_cons_cons, crc8From_cons, hxor, crcTab_xor, ih _ _ e (Nat.succ.inj h)]
    rfl

/-- A zero byte leaves the register 0 as it is. -/
theorem crc8From_zeros (n : Nat) (d : List Byte) : crc8From 0 (List.replicate n 0 ++ d) = crc8From 0 d := by
  induction n with
  | zero => rfl
  | succ n ih =>
    have hzero : crcTab ((0 : Byte) ^^^ 0) = 0 := crcTab_zero
    rw [List.replicate_succ, List.cons_append, crc8From_cons, hzero, ih]

/-- A shift loses nothing: the bit pushed out comes back in bit 0 of the polynomial. -/
theorem crcShift_eq_zero {c : Byte} (h : crcShift c = 0) : c = 0 := by
  decide +revert

theorem crcTab_eq_zero_iff (i : Byte) : crcTab i = 0 ↔ i = 0 := by
  have hrepeat : ∀ n : Nat, Nat.repeat crcShift n i = 0 → i = 0 := by
    intro n
    induction n with
    | zero => exact id
    | succ n ih => exact fun h => ih (crcShift_eq_zero h)
  constructor
  · rw [crcTab_eq_bitwise]
    exact hrepeat 8
  · rintro rfl
    exact crcTab_zero

/-- The decoder's comparison is the residue being 0 (R115). -/
theorem crc8_eq_iff_residue (d : List Byte) (b : Byte) : crc8 d = b ↔ crc8 (d ++ [b]) = 0 := by
  rw [crc8_snoc, crcTab_eq_zero_iff]
  exact BitVec.xor_eq_zero_iff.symm

end Sys2Proof.Machine

open Sys2Proof Sys2Proof.Machine in
/-- Settles O22: both run the same fold, the table entry being eight shifts. -/
theorem crc8EqualsItsBitwiseForm : Obligations.Crc8EqualsItsBitwiseForm := by
  intro d
  have htab : (fun c x => crcTab (c ^^^ x)) = fun c x : Byte => Nat.repeat crcShift 8 (c ^^^ x) :=
    funext₂ fun c x => crcTab_eq_bitwise (c ^^^ x)
  rw [crc8_eq_crc8From, crc8From, htab]
  rfl

open Sys2Proof Sys2Proof.Machine in
/-- Settles O23: the update is linear and only the index 0 has the table entry 0. -/
theorem crc8ResidueAndLinearity : Obligations.Crc8ResidueAndLinearity := by
  refine ⟨fun d b => ⟨crc8_append_crc8 d, crc8_eq_iff_residue d b⟩, fun d e h => ?_, fun n d => ?_⟩
  · simp only [crc8_eq_crc8From]
    exact crc8From_xor 0 0 d e h
  · simp only [crc8_eq_crc8From, crc8From_zeros]
end

/-! ## The writer's micro-ops (41_buffer_writer.md R130 to R143) -/

section
namespace Sys2Proof.Machine

/-! ### Big-endian bytes (20_memory.md R63) -/

/-- The n low bytes of a value are those of its residue modulo 256^n. -/
theorem bigEndian_mod (n v : Nat) : bigEndian n (v % 256 ^ n) = bigEndian n v := by
  refine List.map_congr_left fun j hj => ?_
  have hjn : n - 1 - j + 1 ≤ n := by have := List.mem_range.mp hj; omega
  have hsplit : 256 ^ n = 256 ^ (n - 1 - j) * 256 ^ (n - (n - 1 - j)) := by
    rw [← Nat.pow_add, Nat.add_sub_cancel' (by omega)]
  have hdvd : 256 ∣ 256 ^ (n - (n - 1 - j)) := dvd_pow_self 256 (by omega)
  apply BitVec.eq_of_toNat_eq
  rw [BitVec.toNat_ofNat, BitVec.toNat_ofNat, hsplit, Nat.mod_mul_right_div_self]
  exact Nat.mod_mod_of_dvd _ hdvd

/-- The bytes an append writes are those of its operand's residue. -/
theorem beBytes_eq_bigEndian_mod (n : Nat) (d : BitVec 32) : beBytes n d = bigEndian n (d.toNat % 256 ^ n) := by
  rw [bigEndian_mod, bigEndian_toNat]
  rfl

/-- A sign-extended operand's residue is its value's (R143). -/
theorem ofInt_toNat_mod (v : Int) :
    (BitVec.ofInt 32 v).toNat % 2 ^ 8 = (v % 2 ^ 8).toNat ∧ (BitVec.ofInt 32 v).toNat % 2 ^ 16 = (v % 2 ^ 16).toNat ∧
      (BitVec.ofInt 32 v).toNat % 2 ^ 24 = (v % 2 ^ 24).toNat ∧ (BitVec.ofInt 32 v).toNat = (v % 2 ^ 32).toNat := by
  rw [BitVec.toNat_ofInt]
  omega

/-! ### Appends (R131, R132) -/

/-- An append writes its operand's low bytes, all or none. -/
theorem Writer.append_appendsBytes (n : Nat) (d : BitVec 32) (w : Writer) :
    AppendsBytes (bigEndian n (d.toNat % 256 ^ n)) w (w.append n d) := by
  rw [← beBytes_eq_bigEndian_mod]
  refine ⟨fun hfits => ?_, fun hover => ?_⟩ <;> rw [beBytes_length] at *
  · obtain ⟨hcursor, hovf, hbuf, -⟩ := w.append_fits n d hfits
    refine ⟨hcursor, hovf, fun j hj => ?_⟩
    simp only [hbuf, memWrite, putBytes_getElem _ _ _ _ hj, beBytes_length]
  · exact w.append_overflows n d (by omega)

/-- The append of all 32 bits. -/
theorem Writer.append_four_appendsBytes (d : BitVec 32) (w : Writer) :
    AppendsBytes (bigEndian 4 d.toNat) w (w.append 4 d) := by
  have happend := w.append_appendsBytes 4 d
  rwa [bigEndian_mod] at happend

end Sys2Proof.Machine

open Sys2Proof Sys2Proof.Machine in
/-- Settles O24: W_RESET's meaning. -/
theorem writerResetEmptiesTheWriter : Obligations.WriterResetEmptiesTheWriter :=
  fun s => ⟨rfl, s.wr.start, rfl, rfl, rfl, rfl⟩

open Sys2Proof Sys2Proof.Machine in
/-- Settles O25: each unsigned append is the writer's append of its width. -/
theorem unsignedAppendsWriteBigEndian : Obligations.UnsignedAppendsWriteBigEndian :=
  fun s d => ⟨⟨rfl, _, rfl, s.wr.append_appendsBytes 1 d⟩, ⟨rfl, _, rfl, s.wr.append_appendsBytes 2 d⟩,
    ⟨rfl, _, rfl, s.wr.append_appendsBytes 3 d⟩, ⟨rfl, _, rfl, s.wr.append_four_appendsBytes d⟩⟩

open Sys2Proof Sys2Proof.Machine in
/-- Settles O26: each signed append is the unsigned one of its width, and a sign-extended operand has its value's low
bytes. -/
theorem signedAppendsWriteTwosComplement : Obligations.SignedAppendsWriteTwosComplement := by
  refine ⟨fun s d => ?_, fun s v => ?_⟩
  · obtain ⟨⟨-, h8⟩, ⟨-, h16⟩, ⟨-, h24⟩, ⟨-, h32⟩⟩ := unsignedAppendsWriteBigEndian s d
    exact ⟨⟨rfl, rfl, h8⟩, ⟨rfl, rfl, h16⟩, ⟨rfl, rfl, h24⟩, ⟨rfl, rfl, h32⟩⟩
  · obtain ⟨⟨-, h8⟩, ⟨-, h16⟩, ⟨-, h24⟩, ⟨-, h32⟩⟩ := unsignedAppendsWriteBigEndian s (BitVec.ofInt 32 v)
    obtain ⟨r8, r16, r24, r32⟩ := ofInt_toNat_mod v
    rw [r8] at h8
    rw [r16] at h16
    rw [r24] at h24
    rw [r32] at h32
    exact ⟨fun _ _ => ⟨rfl, h8⟩, fun _ _ => ⟨rfl, h16⟩, fun _ _ => ⟨rfl, h24⟩, fun _ _ => ⟨rfl, h32⟩⟩

open Sys2Proof Sys2Proof.Machine in
/-- Settles O27: the two branches of the patch. -/
theorem patchOverwritesOneWrittenByte : Obligations.PatchOverwritesOneWrittenByte := by
  intro s i d
  by_cases hi : i.toNat < s.wr.cursor.val
  · obtain ⟨hcursor, hovf, hbuf, -⟩ := s.wr.patch_below i d hi
    refine ⟨rfl, _, rfl, hcursor, fun _ => ⟨hovf, fun j hj => ?_⟩, fun hpast => absurd hi (Nat.not_lt.mpr hpast)⟩
    have hbyte : lowByte d = BitVec.ofNat 8 (d.toNat % 2 ^ 8) := by
      rw [lowByte, byteOf_eq]
      apply BitVec.eq_of_toNat_eq
      simp
    simp only [hbuf, Vector.getElem_set, hbyte]
    exact if_congr eq_comm rfl rfl
  · refine ⟨rfl, s.wr.patch i d, rfl, ?_⟩
    rw [s.wr.patch_past i d hi]
    exact ⟨rfl, fun hbelow => absurd hbelow hi, fun _ => ⟨rfl, rfl⟩⟩
end

/-! ## Events, transmit lists and the multiplexer (60_exceptions.md R255, 45_telemetry_mux.md R230, R231) -/

section
namespace Sys2Proof.Machine

/-! ### Events (R255) -/

/-- Only a FEED has events. -/
theorem CommandOutput.events_eq_nil {s t : State} {i : Instr} {o : StepOutput} (h : CommandOutput s t i o)
    (hi : ∀ b, i ≠ .feed b) : o.events = [] := by
  cases h with
  | feed b => exact absurd rfl (hi b)
  | dreset | setlqt | setrst | setbat | setcus | pollNone | pollKind | crc | illegal => rfl

/-- A FEED's events by its response code. -/
theorem FeedEffect.events_of_code {s t : State} {o : StepOutput} (h : FeedEffect s t o) :
    (o.response.code = .frameRc → o.events = [.rc t.chan]) ∧
    (o.response.code = .frameLink → ∃ ls, o.events = .link ls :: failsafeEvents s.failsafe t.failsafe) ∧
    (o.response.code ≠ .frameRc → o.response.code ≠ .frameLink → o.events = []) := by
  cases h with
  | quiet he _ _ hr => exact ⟨fun h => absurd h hr.1, fun h => absurd h hr.2, fun _ _ => he⟩
  | rc he _ hr => rw [hr]; exact ⟨fun _ => he, nofun, fun h => absurd rfl h⟩
  | link ls he _ _ hr => rw [hr]; exact ⟨nofun, fun _ => ⟨ls, he⟩, fun _ h => absurd rfl h⟩

/-- The record of a link event has the comparator's two inputs, and nothing else of it counts (44_failsafe.md R215). -/
theorem fsEval_congr {ls ls' : LinkStats} (hlq : ls.lq = ls'.lq) (hrssi : ls.rssi = ls'.rssi) (lqt rst : Byte) :
    fsEval ls lqt rst = fsEval ls' lqt rst := by
  rw [fsEval, fsEval, hlq, hrssi]

/-- A FEED of a CRC byte that emits a link event has dispatched the frame in the buffer. -/
theorem exec_feed_link_record {b : Byte} {s t : State} {o : StepOutput} {ls : LinkStats} (hinv : s.dec.Inv)
    (hst : s.dec.state = .awaitCrc) (h : exec (.feed b) s = .next t) (ho : t.outputs = s.outputs ++ [o])
    (hls : .link ls ∈ o.events) : ls = unpackLs Config.antSelectPolarity Config.txpwrMw (slice s.dec.rxbuf 3 12) := by
  obtain ⟨-, -, hidx⟩ := hinv.awaitCrc hst
  by_cases hb : b = crc8 (slice s.dec.rxbuf 2 s.dec.len.toNat)
  · rw [exec_feed_crc_match hinv hst hb] at h
    obtain ⟨code, -, hd⟩ | ⟨-, -, hd⟩ | ⟨-, hlen, hd⟩ := dispatch_cases s.dec.len.toNat (s.afterCrc b) <;>
      rw [hd] at h <;> cases h
    · cases List.append_cancel_left ho
      cases hls
    · cases List.append_cancel_left ho
      simp at hls
    · rw [linkDispatch_afterCrc b (by omega)] at ho
      cases List.append_cancel_left ho
      simpa [link_notMem_failsafeEvents] using hls
  · rw [exec_feed_crc_mismatch hinv hst hb] at h
    cases h
    cases List.append_cancel_left ho
    cases hls

/-! ### The frame a POLL transmits (R230) -/

theorem packBat_eq_bigEndian (v c : BitVec 16) (k : BitVec 24) (p : Byte) :
    packBat v c k p = bigEndian 2 v.toNat ++ bigEndian 2 c.toNat ++ bigEndian 3 k.toNat ++ [p] := by
  simp only [bigEndian_toNat]
  rfl

/-- The frame of R230 is the frame `build_frame` leaves. -/
theorem telemetryFrame_eq (tel : Telemetry) (k : Kind) :
    telemetryFrame tel k = frameBytes Config.syncTx (frameType k) (tel.payload k) := by
  unfold telemetryFrame frameType Telemetry.payload
  split
  · rw [packBat_eq_bigEndian]
    rfl
  · rfl

@[simp] theorem frameBytes_length (sync type : Byte) (payload : List Byte) :
    (frameBytes sync type payload).length = payload.length + 4 := by
  simp [frameBytes]

/-! ### Round robin (R231) -/

/-- POLLs that serve the kinds `f 0`, `f 1`, … respond with these kinds' codes. -/
theorem execAll_polls (n : Nat) (s : State) (f : Nat → Kind) (hfirst : s.tel.Serves (f 0))
    (hnext : ∀ i, Telemetry.Serves { s.tel with muxCursor := f i + 1 } (f (i + 1))) :
    ∃ t os, execAll (List.replicate n .poll) s = .next t ∧ t.outputs = s.outputs ++ os ∧
      os.map (·.response.code) = (List.range n).map fun i => pollCode (f i) := by
  induction n generalizing s f with
  | zero => exact ⟨s, [], rfl, (List.append_nil _).symm, rfl⟩
  | succ n ih =>
    have hpoll := exec_poll_serves hfirst
    obtain ⟨t, os, ht, hos, hcodes⟩ := ih
      ({ s with wr := buildFrame s.tel (f 0) s.wr, tel := { s.tel with muxCursor := f 0 + 1 } }.respond
        ⟨⟨pollCode (f 0), 0⟩, [], (buildFrame s.tel (f 0) s.wr).content⟩) (fun i => f (i + 1)) (hnext 0)
      fun i => hnext (i + 1)
    refine ⟨t, _ :: os, ?_, hos.trans (List.append_assoc _ [_] os), ?_⟩
    · rw [List.replicate_succ, execAll, hpoll]
      exact ht
    · rw [List.map_cons, hcodes, List.range_succ_eq_map, List.map_cons, List.map_map]
      rfl

theorem outputsSince_of_append {s t : State} {os : List StepOutput} (h : t.outputs = s.outputs ++ os) :
    outputsSince s t = os := by
  rw [outputsSince, h, List.drop_left]

/-- The kind i places after a kind is the battery exactly on even places. -/
theorem pollCode_add (c : Kind) (i : Nat) :
    pollCode (c + Fin.ofNat 2 i) = if (c.val + i) % 2 = 0 then .pollBattery else .pollCustom := by
  refine if_congr ?_ rfl rfl
  rw [Fin.ext_iff, Fin.val_add]
  simp

/-! ### Which elements a command writes (10_state.md R40) -/

/-- A decoder command leaves everything but the decoder's part. -/
theorem exec_decoder_frame {i : Instr} {s t : State} (hi : i = .dreset ∨ ∃ b, i = .feed b) (h : exec i s = .next t) :
    t.lqThr = s.lqThr ∧ t.rssiThr = s.rssiThr ∧ t.tel = s.tel ∧ t.wr = s.wr := by
  obtain ⟨o, ht, -⟩ := (exec_confined_to_decoder i hi).of_agree (s' := s) rfl rfl h
  rw [ht]
  exact ⟨rfl, rfl, rfl, rfl⟩

end Sys2Proof.Machine

open Sys2Proof Sys2Proof.Machine in
/-- Settles O17: the two delivering codes are decode outcomes, so the command is a FEED, whose effect has the events. -/
theorem eventsComeOnlyFromFrames : Obligations.EventsComeOnlyFromFrames := by
  intro i s t o h ho
  have hout := commandOutput_of_outputs h ho
  by_cases hi : ∃ b, i = .feed b
  · obtain ⟨b, rfl⟩ := hi
    cases hout with
    | feed _ _ _ _ _ heffect =>
      obtain ⟨hrc, hlink, hquiet⟩ := heffect.events_of_code
      exact ⟨fun hcode => ⟨⟨b, rfl⟩, hrc hcode⟩, fun hcode => ⟨⟨b, rfl⟩, hlink hcode⟩, hquiet⟩
  · have hnone := hout.events_eq_nil (not_exists.mp hi)
    have hcode (hle : o.response.code.toByte.toNat ≤ 7) : False := hi (hout.eq_feed hle)
    exact ⟨fun hrc => (hcode (by rw [hrc]; decide)).elim, fun hlink => (hcode (by rw [hlink]; decide)).elim,
      fun _ _ => hnone⟩

open Sys2Proof Sys2Proof.Machine in
/-- Settles O19: the transmit list is read off the command's output. -/
theorem onlyAPollTransmits : Obligations.OnlyAPollTransmits := by
  intro i s t o h ho
  cases commandOutput_of_outputs h ho with
  | feed b o _ _ htransmit => exact .inl ⟨htransmit, nofun⟩
  | dreset | setlqt | setrst | setbat | setcus | crc | illegal => exact .inl ⟨rfl, nofun⟩
  | pollNone => exact .inl ⟨rfl, fun _ => rfl⟩
  | pollKind k hk => exact .inr ⟨rfl, k, hk, rfl, (telemetryFrame_eq s.tel k).symm⟩

open Sys2Proof Sys2Proof.Machine in
/-- Settles O35: the record is that of the slice, byte by byte, with its two derived fields. -/
theorem linkRecordTakesTheTenBytes : Obligations.LinkRecordTakesTheTenBytes := by
  intro b s t o ls hinv hst h ho hls
  obtain rfl := exec_feed_link_record hinv hst h ho hls
  have hbyte (j : Nat) (hj : 3 + j ≤ 12) := slice_getD_payloadByte s hj
  simp only [unpackLs, hbyte, Nat.reduceAdd, Nat.reduceLeDiff, Config.antSelectPolarity, selectRssi_false,
    txpwrMap_eq_getD, and_self]

open Sys2Proof Sys2Proof.Machine in
/-- Settles O48: the new flag is the comparator's value for the emitted record, and no other FEED moves it. -/
theorem failsafeIgnoresTheRest : Obligations.FailsafeIgnoresTheRest := by
  refine ⟨fun b b' s s' t t' o o' ls ls' es es' h h' ho ho' he he' hlq hrssi hlqt hrst => ?_,
    fun b s t o h ho hcode => ?_⟩
  · have hls : .link ls ∈ o.events := by rw [he]; exact List.mem_cons_self
    have hls' : .link ls' ∈ o'.events := by rw [he']; exact List.mem_cons_self
    obtain ⟨hf, -⟩ := ((commandOutput_of_outputs h ho).feedEffect_of_link hls).failsafe_of_link hls
    obtain ⟨hf', -⟩ := ((commandOutput_of_outputs h' ho').feedEffect_of_link hls').failsafe_of_link hls'
    rw [hf, hf', fsEval_congr hlq hrssi, hlqt, hrst]
  · cases commandOutput_of_outputs h ho with
    | feed _ _ _ _ _ heffect => exact of_not_not fun hne => hcode (heffect.code_of_failsafe_ne hne)

open Sys2Proof Sys2Proof.Machine in
/-- Settles O53: POLL transmits what `build_frame` leaves in the writer. -/
theorem pollTransmitsTheWholeFrame : Obligations.PollTransmitsTheWholeFrame := by
  intro s k hk
  obtain ⟨hcontent, -, hovf⟩ := buildFrame_spec s.tel k s.wr
  have hframe := hcontent.trans (telemetryFrame_eq s.tel k).symm
  have hlen : (telemetryFrame s.tel k).length = (s.tel.payload k).length + 4 := by
    rw [telemetryFrame_eq, frameBytes_length]
  have hle := s.tel.payload_length_le k
  refine ⟨_, _, exec_poll_serves hk, rfl, hframe, hframe, ?_, ?_, hovf⟩
  · rw [hframe, hlen, Telemetry.payload_length, ite_add]
  · rw [hframe, hlen]
    omega

open Sys2Proof Sys2Proof.Machine in
/-- Settles O54: with both pending the cursor's kind is served each time and the cursor moves to the other; with one
pending the scan always ends at it. -/
theorem pendingKindsAlternate : Obligations.PendingKindsAlternate := by
  refine fun n s => ⟨fun hboth => ?_, fun k hk hother => ?_⟩
  · have hnext (i : Nat) : s.tel.muxCursor + Fin.ofNat 2 (i + 1) = s.tel.muxCursor + Fin.ofNat 2 i + 1 := by
      rw [add_assoc, Fin.ext_iff]
      simp [Fin.val_add]
    obtain ⟨t, os, ht, hos, hcodes⟩ := execAll_polls n s (fun i => s.tel.muxCursor + Fin.ofNat 2 i)
      ⟨hboth _, .inl (by simp)⟩ fun i => ⟨hboth _, .inl (hnext i)⟩
    refine ⟨t, ht, ?_⟩
    rw [outputsSince_of_append hos, hcodes]
    simp only [pollCode_add]
  · have hserves (c : Kind) : Telemetry.Serves { s.tel with muxCursor := c } k := by
      obtain rfl | rfl := kind_eq_or_eq_add_one c k
      · exact ⟨hk, .inl rfl⟩
      · exact ⟨hk, .inr hother⟩
    obtain ⟨t, os, ht, hos, hcodes⟩ := execAll_polls n s (fun _ => k) (hserves s.tel.muxCursor) fun _ => hserves (k + 1)
    refine ⟨t, ht, ?_⟩
    rw [outputsSince_of_append hos, hcodes, List.map_const', List.length_range]
    rfl

open Sys2Proof Sys2Proof.Machine in
/-- Settles O57: each side's commands leave the other side, and within its side a command writes the elements of its own
rule. -/
theorem elementsHaveTheirOwnWriters : Obligations.ElementsHaveTheirOwnWriters := by
  intro i s t h
  cases i with
  | feed b =>
    obtain ⟨hlqt, hrst, htel, hwr⟩ := exec_decoder_frame (.inr ⟨b, rfl⟩) h
    simp [hlqt, hrst, htel, hwr]
  | setbat v c k p => cases h; simp
  | setcus data =>
    by_cases hlen : data.length < 61
    · rw [exec_setcus_accepted data s hlen] at h
      cases h
      simp [Telemetry.storeCustom, Nat.le_of_lt_succ hlen]
    · rw [exec_setcus_rejected data s hlen] at h
      cases h
      simp
  | poll =>
    cases hk : s.tel.nextKind with
    | none => rw [show exec .poll s = _ from execPoll_none s hk] at h; cases h; simp
    | some k => rw [show exec .poll s = _ from execPoll_some s k hk] at h; cases h; simp
  | wReserved => cases h
  | dreset | setlqt | setrst | crc | illegal | wReset | wU8 | wS8 | wU16 | wS16 | wU24 | wS24 | wU32 | wS32 | wPatch =>
    cases h
    simp [Instr.isCommand]
end

/-! ## The codecs as positional notation (43_payload_codecs.md R180, R182, R193, R195) -/

section
namespace Sys2Proof.Machine

/-! ### Values of lists of fields, the first field least significant -/

/-- `Σ x[i] · 2^(w·i)`. -/
def fieldsValue {w : Nat} : List (BitVec w) → Nat
  | [] => 0
  | x :: xs => x.toNat + 2 ^ w * fieldsValue xs

/-- The n low fields of w bits of a number, the first least significant. -/
def fieldsOf (w n v : Nat) : List (BitVec w) := (List.range n).map fun i => BitVec.ofNat w (v >>> (w * i))

theorem leValue_eq_fieldsValue (p : List Byte) : leValue p = fieldsValue p := by
  induction p with
  | nil => rfl
  | cons b bs ih => rw [leValue, ih]; rfl

theorem channelsValue_eq_fieldsValue (c : List Channel) : channelsValue c = fieldsValue c := by
  induction c with
  | nil => rfl
  | cons x xs ih => rw [channelsValue, ih]; rfl

/-- A field is the number cut to its width, so the mask of R180 and R193 changes nothing. -/
theorem ofNat_and_mask (w v : Nat) : BitVec.ofNat w (v &&& (2 ^ w - 1)) = BitVec.ofNat w v := by
  apply BitVec.eq_of_toNat_eq
  rw [Nat.and_two_pow_sub_one_eq_mod, BitVec.toNat_ofNat, BitVec.toNat_ofNat, Nat.mod_mod]

theorem packRc_eq_fieldsOf (c : Vector Channel 16) : packRc c = fieldsOf 8 22 (fieldsValue c.toList) := by
  rw [packRc, channelsValue_eq_fieldsValue]
  exact List.map_congr_left fun j _ => ofNat_and_mask 8 _

theorem unpackRc_toList (p : List Byte) : (unpackRc p).toList = fieldsOf 11 16 (fieldsValue p) := by
  rw [unpackRc, leValue_eq_fieldsValue]
  apply List.ext_getElem
  · simp [fieldsOf]
  · intro i hi hi'
    rw [Vector.getElem_toList, Vector.getElem_ofFn]
    simpa [fieldsOf] using ofNat_and_mask 11 _

theorem fieldsOf_succ (w n v : Nat) : fieldsOf w (n + 1) v = BitVec.ofNat w v :: fieldsOf w n (v / 2 ^ w) := by
  simp only [fieldsOf, List.range_succ_eq_map, List.map_cons, List.map_map, Nat.mul_zero, Nat.shiftRight_zero]
  congr 1
  refine List.map_congr_left fun i _ => ?_
  rw [Function.comp_apply, Nat.mul_succ, Nat.add_comm, Nat.shiftRight_add, Nat.shiftRight_eq_div_pow v w]

/-- Cutting a number into fields and adding them up again loses what does not fit in the fields. -/
theorem fieldsValue_fieldsOf (w n v : Nat) : fieldsValue (fieldsOf w n v) = v % 2 ^ (w * n) := by
  induction n generalizing v with
  | zero => simp [fieldsOf, fieldsValue, Nat.mod_one]
  | succ n ih =>
    rw [fieldsOf_succ, fieldsValue, ih, BitVec.toNat_ofNat, Nat.mul_succ, Nat.add_comm (w * n), Nat.pow_add,
      Nat.mod_mul]

theorem fieldsOf_fieldsValue {w : Nat} (xs : List (BitVec w)) : fieldsOf w xs.length (fieldsValue xs) = xs := by
  induction xs with
  | nil => rfl
  | cons x xs ih =>
    have hpos : 0 < 2 ^ w := Nat.two_pow_pos w
    have hhead : BitVec.ofNat w (fieldsValue (x :: xs)) = x := by
      apply BitVec.eq_of_toNat_eq
      rw [BitVec.toNat_ofNat, fieldsValue, Nat.add_mul_mod_self_left, Nat.mod_eq_of_lt x.isLt]
    have htail : fieldsValue (x :: xs) / 2 ^ w = fieldsValue xs := by
      rw [fieldsValue, Nat.add_mul_div_left _ _ hpos, Nat.div_eq_of_lt x.isLt, Nat.zero_add]
    rw [List.length_cons, fieldsOf_succ, hhead, htail, ih]

/-- The value of n fields fits in their bits, so any fields that have as many bits hold it. -/
theorem fieldsValue_lt {w : Nat} (xs : List (BitVec w)) : fieldsValue xs < 2 ^ (w * xs.length) := by
  have hmod := fieldsValue_fieldsOf w xs.length (fieldsValue xs)
  rw [fieldsOf_fieldsValue] at hmod
  rw [hmod]
  exact Nat.mod_lt _ (Nat.two_pow_pos _)

/-- Sixteen channels and 22 bytes are the same 176 bits: unpacking a packed channel table gives it back (R195 law 1). -/
theorem unpackRc_packRc (c : Vector Channel 16) : unpackRc (packRc c) = c := by
  have hlt := fieldsValue_lt c.toList
  have hfields := fieldsOf_fieldsValue c.toList
  rw [Vector.length_toList] at hlt hfields
  apply Vector.toList_inj.mp
  rw [unpackRc_toList, packRc_eq_fieldsOf, fieldsValue_fieldsOf, Nat.mod_eq_of_lt hlt, hfields]

/-- Packing an unpacked payload gives its bytes back (R195 law 2). -/
theorem packRc_unpackRc (p : List Byte) (h : p.length = 22) : packRc (unpackRc p) = p := by
  have hlt := fieldsValue_lt p
  have hfields := fieldsOf_fieldsValue p
  rw [h] at hlt hfields
  rw [packRc_eq_fieldsOf, unpackRc_toList, fieldsValue_fieldsOf, Nat.mod_eq_of_lt hlt, hfields]

/-! ### The byte formulas (R182) -/

/-- A payload's value from byte k on: the next three bytes and what follows them. -/
theorem leValue_shift_bytes (p : List Byte) (k : Nat) : ∃ rest, leValue p / 256 ^ k =
    (p.getD k 0).toNat + 256 * (p.getD (k + 1) 0).toNat + 65536 * (p.getD (k + 2) 0).toNat + 16777216 * rest := by
  have h0 := leValue_byte p k
  have h1 := leValue_byte p (k + 1)
  have h2 := leValue_byte p (k + 2)
  rw [Nat.pow_succ, ← Nat.div_div_eq_div_mul] at h1
  rw [Nat.pow_add, ← Nat.div_div_eq_div_mul] at h2
  exact ⟨leValue p / 256 ^ k / 16777216, by omega⟩

/-- The eleven bits from bit r of byte k on lie in that byte and the two after it. -/
theorem channel_bits (p : List Byte) (k : Nat) {r : Nat} (hr : r ≤ 7) :
    (leValue p >>> (8 * k + r)) &&& 0x7FF =
      (((p.getD k 0).toNat + 256 * (p.getD (k + 1) 0).toNat + 65536 * (p.getD (k + 2) 0).toNat) >>> r) % 2048 := by
  obtain ⟨rest, hrest⟩ := leValue_shift_bytes p k
  have hbase : leValue p >>> (8 * k) = leValue p / 256 ^ k := by
    rw [Nat.shiftRight_eq_div_pow, Nat.pow_mul]
  rw [Nat.shiftRight_add, hbase, hrest, Nat.and_two_pow_sub_one_eq_mod _ 11, Nat.shiftRight_eq_div_pow,
    Nat.shiftRight_eq_div_pow]
  interval_cases r <;> omega

/-- A channel that begins at one of the bits 0 to 5 of byte k ends in the next byte. -/
theorem channel_in_two_bytes (p : List Byte) (k : Nat) {r : Nat} (hr : r ≤ 5) :
    (leValue p >>> (8 * k + r)) &&& 0x7FF =
      (((p.getD k 0).toNat >>> r) + ((p.getD (k + 1) 0).toNat <<< (8 - r))) &&& 0x7FF := by
  rw [channel_bits p k (by omega), Nat.and_two_pow_sub_one_eq_mod _ 11]
  simp only [Nat.shiftRight_eq_div_pow, Nat.shiftLeft_eq]
  interval_cases r <;> omega

/-- A channel that begins at bit 6 or 7 of byte k takes the next byte whole and ends in the one after it. -/
theorem channel_in_three_bytes (p : List Byte) (k : Nat) {r : Nat} (hr : 6 ≤ r) (hr' : r ≤ 7) :
    (leValue p >>> (8 * k + r)) &&& 0x7FF =
      (((p.getD k 0).toNat >>> r) + ((p.getD (k + 1) 0).toNat <<< (8 - r)) +
        ((p.getD (k + 2) 0).toNat <<< (16 - r))) &&& 0x7FF := by
  rw [channel_bits p k hr', Nat.and_two_pow_sub_one_eq_mod _ 11]
  simp only [Nat.shiftRight_eq_div_pow, Nat.shiftLeft_eq]
  interval_cases r <;> omega

theorem unpackRc_toNats (p : List Byte) :
    (unpackRc p).toList.map BitVec.toNat = (List.range 16).map fun i => (leValue p >>> (11 * i)) &&& 0x7FF := by
  apply List.ext_getElem
  · simp
  · intro i hi hi'
    rw [List.getElem_map, Vector.getElem_toList, unpackRc_getElem_toNat, List.getElem_map, List.getElem_range]

end Sys2Proof.Machine

open Sys2Proof Sys2Proof.Machine in
/-- Settles O44: both RC codecs cut the same 176-bit number, into bytes and into channels; the link codec keeps its ten
bytes. -/
theorem codecsRoundTrip : Obligations.CodecsRoundTrip :=
  ⟨unpackRc_packRc, packRc_unpackRc, fun polarity table ls => packLs_unpackLs polarity table (packLs ls) rfl⟩

open Sys2Proof Sys2Proof.Machine in
/-- Settles O45: channel i begins at bit 11i, which is bit 11i mod 8 of byte 11i / 8. -/
theorem channelsFollowTheByteFormulas : Obligations.ChannelsFollowTheByteFormulas := by
  intro bytes _ p
  have two (k : Nat) {r : Nat} (hr : r ≤ 5) := channel_in_two_bytes bytes k hr
  have three (k : Nat) {r : Nat} (hr : 6 ≤ r) (hr' : r ≤ 7) := channel_in_three_bytes bytes k hr hr'
  rw [unpackRc_toNats]
  simp only [List.range, List.range.loop, List.map_cons, List.map_nil, List.cons.injEq, and_true]
  exact ⟨two 0 (r := 0) (by decide), two 1 (r := 3) (by decide), three 2 (r := 6) (by decide) (by decide),
    two 4 (r := 1) (by decide), two 5 (r := 4) (by decide), three 6 (r := 7) (by decide) (by decide),
    two 8 (r := 2) (by decide), two 9 (r := 5) (by decide), two 11 (r := 0) (by decide), two 12 (r := 3) (by decide),
    three 13 (r := 6) (by decide) (by decide), two 15 (r := 1) (by decide), two 16 (r := 4) (by decide),
    three 17 (r := 7) (by decide) (by decide), two 19 (r := 2) (by decide), two 20 (r := 5) (by decide)⟩
end

/-! ## Whole frames (42_frame_decoder.md R159, R162, 43_payload_codecs.md R195, 70_reset_and_hazards.md R276) -/

section
namespace Sys2Proof.Machine

/-! ### The bytes fed since AWAIT_SYNC -/

/-- The bytes can stand before the CRC of a frame: a sync byte, a legal length, and no more bytes than it announces. -/
def BeginsFrame : List Byte → Prop
  | [] => True
  | [sync] => sync = 0xC8 ∨ sync = 0xEE
  | sync :: len :: body =>
    (sync = 0xC8 ∨ sync = 0xEE) ∧ 2 ≤ len.toNat ∧ len.toNat ≤ 62 ∧ body.length + 1 ≤ len.toNat

theorem BeginsFrame.of_append {xs ys : List Byte} (h : BeginsFrame (xs ++ ys)) : BeginsFrame xs := by
  match xs, ys, h with
  | [], _, _ => trivial
  | [_], [], h => exact h
  | [_], _ :: _, h => exact h.1
  | _ :: _ :: body, ys, ⟨hsync, hmin, hmax, hlen⟩ =>
    have hlength : (body ++ ys).length = body.length + ys.length := List.length_append
    exact ⟨hsync, hmin, hmax, le_trans (by omega) (hlength ▸ hlen)⟩

/-- The decoder has taken the bytes since AWAIT_SYNC: they stand in `rxbuf`, and it waits for what comes next (R38). -/
def Decoder.Collected (d : Decoder) : List Byte → Prop
  | [] => d.state = .awaitSync ∧ d.idx.val = 0 ∧ d.len = 0
  | [sync] => d.state = .awaitLength ∧ d.rxbuf.toList.take 1 = [sync]
  | sync :: len :: body =>
    d.state = (if body.length + 1 = len.toNat then .awaitCrc else .accumulate) ∧ d.idx.val = body.length + 2 ∧
      d.len = len ∧ d.rxbuf.toList.take (body.length + 2) = sync :: len :: body

/-- A store just past the bytes that stand in a buffer adds a byte to them. -/
theorem take_succ_set {n : Nat} (buf : Vector Byte n) (i : Nat) (x : Byte) (h : i < n) :
    (buf.set i x).toList.take (i + 1) = buf.toList.take i ++ [x] := by
  rw [Vector.toList_set, List.take_succ_eq_append_getElem (by simpa using h), List.getElem_set_self,
    List.take_set_of_le le_rfl]

/-- One more byte that goes on with the frame is taken, and answered PROGRESS. -/
theorem Decoder.Collected.feed {s : State} {fed : List Byte} {b : Byte} (hc : s.dec.Collected fed)
    (hbegins : BeginsFrame (fed ++ [b])) :
    ∃ d, exec (.feed b) s = .next ({ s with dec := d }.respond (reply .progress)) ∧ d.Collected (fed ++ [b]) := by
  match fed, hc, hbegins with
  | [], ⟨hst, _⟩, hsync =>
    rw [exec_feed_awaitSync hst]
    exact ⟨_, if_pos hsync, rfl, take_succ_set _ 0 b (by decide)⟩
  | [sync], ⟨hst, hbuf⟩, ⟨_, hmin, hmax, _⟩ =>
    rw [exec_feed_awaitLength hst]
    refine ⟨_, if_pos ⟨hmin, hmax⟩, ?_, rfl, rfl, ?_⟩
    · rw [if_neg (by simp; omega)]
    · exact (take_succ_set _ 1 b (by decide)).trans (congrArg (· ++ [b]) hbuf)
  | sync :: len :: body, ⟨hstate, hidx, hlen, hbuf⟩, ⟨_, _, hmax, hle⟩ =>
    have hlength : (body ++ [b]).length = body.length + 1 := List.length_append
    have hroom : body.length + 1 + 1 ≤ len.toNat := hlength ▸ hle
    have hst : s.dec.state = .accumulate := by rw [hstate, if_neg (by omega)]
    have hfits : s.dec.idx.val + 1 < 64 := by omega
    have htake := take_succ_set s.dec.rxbuf s.dec.idx b s.dec.idx.isLt
    rw [exec_feed_accumulate hst]
    refine ⟨_, dif_pos hfits, ?_, ?_, hlen, ?_⟩
    · change _ = if (body ++ [b]).length + 1 = len.toNat then DecState.awaitCrc else .accumulate
      rw [hlength]
      exact if_congr (by rw [hidx, hlen]; omega) rfl rfl
    · change s.dec.idx.val + 1 = (body ++ [b]).length + 2
      rw [hlength, hidx]
    · change List.take ((body ++ [b]).length + 2) _ = _
      simp only [hidx, hbuf] at htake
      simp only [hlength, hidx]
      exact htake

/-- What a FEED or a threshold setter answers inside a frame. -/
def innerReply : Instr → StepOutput
  | .feed _ => reply .progress
  | _ => reply .ack

/-- The bytes of a frame before its CRC, with any threshold setters between them: the decoder collects the bytes, the
last thresholds stand, nothing else changes. -/
theorem execAll_collects {ops : List Instr} {fed : List Byte} {s : State}
    (hops : ∀ i ∈ ops, (∃ b, i = .feed b) ∨ (∃ x, i = .setlqt x) ∨ ∃ y, i = .setrst y) (hc : s.dec.Collected fed)
    (hbegins : BeginsFrame (fed ++ fedBytes ops)) :
    ∃ d, execAll ops s = .next { s with
        dec := d, lqThr := lqThrAfter ops s.lqThr, rssiThr := rssiThrAfter ops s.rssiThr,
        outputs := s.outputs ++ ops.map innerReply } ∧
      d.Collected (fed ++ fedBytes ops) := by
  induction ops generalizing fed s with
  | nil => exact ⟨s.dec, by simp [execAll, lqThrAfter, rssiThrAfter], by rwa [fedBytes, List.append_nil]⟩
  | cons i ops ih =>
    obtain ⟨hi, hrest⟩ := List.forall_mem_cons.mp hops
    have hout (o : StepOutput) : s.outputs ++ o :: ops.map innerReply = s.outputs ++ [o] ++ ops.map innerReply :=
      List.append_cons s.outputs o _
    obtain ⟨b, rfl⟩ | ⟨x, rfl⟩ | ⟨y, rfl⟩ := hi
    · rw [fedBytes_feed, List.append_cons] at hbegins ⊢
      obtain ⟨d, hstep, hcd⟩ := hc.feed hbegins.of_append
      obtain ⟨d', hrun, hcd'⟩ := ih (s := { s with dec := d }.respond (reply .progress)) hrest hcd hbegins
      refine ⟨d', ?_, hcd'⟩
      rw [execAll, hstep, List.map_cons, hout]
      exact hrun
    · obtain ⟨d', hrun, hcd'⟩ := ih (s := { s with lqThr := x }.respond (reply .ack)) hrest hc hbegins
      refine ⟨d', ?_, hcd'⟩
      rw [List.map_cons, hout]
      exact hrun
    · obtain ⟨d', hrun, hcd'⟩ := ih (s := { s with rssiThr := y }.respond (reply .ack)) hrest hc hbegins
      refine ⟨d', ?_, hcd'⟩
      rw [List.map_cons, hout]
      exact hrun

/-- `s` after n bytes answered PROGRESS that left the decoder in `d`. -/
def State.progressed (s : State) (d : Decoder) (n : Nat) : State :=
  { s with dec := d, outputs := s.outputs ++ List.replicate n (reply .progress) }

/-- FEEDs alone leave the thresholds, and are all answered PROGRESS. -/
theorem feeds_thresholds (bytes : List Byte) (t : Byte) :
    lqThrAfter (feeds bytes) t = t ∧ rssiThrAfter (feeds bytes) t = t ∧
      (feeds bytes).map innerReply = List.replicate bytes.length (reply .progress) := by
  induction bytes with
  | nil => exact ⟨rfl, rfl, rfl⟩
  | cons b bs ih =>
    obtain ⟨hlqt, hrst, hmap⟩ := ih
    exact ⟨hlqt, hrst, congrArg (reply .progress :: ·) hmap⟩

/-- The bytes of a frame before its CRC, fed one after another. -/
theorem execAll_feeds_collects {s : State} {bytes : List Byte} (hs : s.AtSync) (hbegins : BeginsFrame bytes) :
    ∃ d, execAll (feeds bytes) s = .next (s.progressed d bytes.length) ∧ d.Collected bytes := by
  have hops : ∀ i ∈ feeds bytes, (∃ b, i = .feed b) ∨ (∃ x, i = .setlqt x) ∨ ∃ y, i = .setrst y := by
    simp [feeds]
  obtain ⟨d, hrun, hcd⟩ := execAll_collects (fed := []) hops hs (by rwa [fedBytes_feeds])
  rw [fedBytes_feeds, List.nil_append] at hcd
  obtain ⟨hlqt, -, hmap⟩ := feeds_thresholds bytes s.lqThr
  obtain ⟨-, hrst, -⟩ := feeds_thresholds bytes s.rssiThr
  rw [hlqt, hrst, hmap] at hrun
  exact ⟨d, hrun, hcd⟩

/-! ### A frame up to its CRC -/

/-- A frame without its CRC byte. -/
def frameHead (sync type : Byte) (payload : List Byte) : List Byte :=
  sync :: BitVec.ofNat 8 (payload.length + 2) :: type :: payload

theorem frameBytes_eq (sync type : Byte) (payload : List Byte) :
    frameBytes sync type payload = frameHead sync type payload ++ [crc8 (type :: payload)] := rfl

theorem frameBytes_dropLast (sync type : Byte) (payload : List Byte) :
    (frameBytes sync type payload).dropLast = frameHead sync type payload := by
  rw [frameBytes_eq, List.dropLast_concat]

theorem lengthByte_toNat {n : Nat} (h : n ≤ 255) : (BitVec.ofNat 8 n).toNat = n := by
  rw [BitVec.toNat_ofNat, Nat.mod_eq_of_lt (by omega)]

theorem beginsFrame_frameHead {sync : Byte} (hsync : sync = 0xC8 ∨ sync = 0xEE) (type : Byte) {payload : List Byte}
    (h : payload.length ≤ 60) : BeginsFrame (frameHead sync type payload) := by
  rw [frameHead, BeginsFrame, lengthByte_toNat (by omega), List.length_cons]
  exact ⟨hsync, by omega⟩

/-- The decoder waits for the CRC byte of this frame. -/
structure AtCrcOf (s : State) (sync type : Byte) (payload : List Byte) : Prop where
  inv : s.dec.Inv
  state : s.dec.state = .awaitCrc
  len : s.dec.len.toNat = payload.length + 2
  idx : s.dec.idx.val = payload.length + 3
  bytes : s.dec.rxbuf.toList.take (payload.length + 3) = frameHead sync type payload

theorem Decoder.Collected.atCrcOf {s : State} {sync type : Byte} {payload : List Byte} (h : payload.length ≤ 60)
    (hc : s.dec.Collected (frameHead sync type payload)) : AtCrcOf s sync type payload := by
  obtain ⟨hst, hidx, hlen, hbuf⟩ := hc
  have hsize : s.dec.len.toNat = payload.length + 2 := by rw [hlen, lengthByte_toNat (by omega)]
  rw [List.length_cons] at hst hidx hbuf
  rw [lengthByte_toNat (by omega), if_pos rfl] at hst
  refine ⟨⟨?_, ?_, ?_, fun _ => by omega⟩, hst, hsize, hidx, hbuf⟩ <;> rw [hst] <;> rintro ⟨⟩

section
variable {s : State} {sync type : Byte} {payload : List Byte} (h : AtCrcOf s sync type payload)
include h

theorem AtCrcOf.frameType_eq : s.dec.rxbuf[2] = type := by
  have htype := congrArg (·[2]?) h.bytes
  rw [List.getElem?_take_of_lt (by omega)] at htype
  simpa [frameHead] using htype

/-- The bytes the CRC covers. -/
theorem AtCrcOf.slice_crc : slice s.dec.rxbuf 2 s.dec.len.toNat = type :: payload := by
  rw [slice_eq_drop_take, h.len, h.bytes]
  rfl

theorem AtCrcOf.slice_payload {n : Nat} (hn : n = payload.length + 2) : slice s.dec.rxbuf 3 n = payload := by
  rw [slice_eq_drop_take, hn, h.bytes]
  rfl

/-- The CRC byte is stored after the frame's other bytes. -/
theorem AtCrcOf.afterCrc_bytes (b : Byte) :
    (s.afterCrc b).dec.rxbuf.toList.take (payload.length + 4) = frameHead sync type payload ++ [b] := by
  have htake := take_succ_set s.dec.rxbuf s.dec.idx b s.dec.idx.isLt
  simp only [h.idx, h.bytes] at htake
  simp only [State.afterCrc, h.idx]
  exact htake

end

theorem execAll_singleton (i : Instr) (s : State) : execAll [i] s = exec i s := by
  rw [execAll]
  cases exec i s <;> rfl

/-- A frame fed in AWAIT_SYNC up to its CRC, and the step of the byte in the CRC's place. -/
theorem execAll_frame {s : State} {sync : Byte} {payload : List Byte} (hs : s.AtSync)
    (hsync : sync = 0xC8 ∨ sync = 0xEE) (type : Byte) (h : payload.length ≤ 60) :
    ∃ d, AtCrcOf (s.progressed d (payload.length + 3)) sync type payload ∧
      ∀ b, execAll (feeds (frameHead sync type payload ++ [b])) s =
        exec (.feed b) (s.progressed d (payload.length + 3)) := by
  obtain ⟨d, hrun, hcd⟩ := execAll_feeds_collects hs (beginsFrame_frameHead hsync type h)
  refine ⟨d, Decoder.Collected.atCrcOf (s := s.progressed d _) h hcd, fun b => ?_⟩
  rw [show feeds (frameHead sync type payload ++ [b]) = feeds (frameHead sync type payload) ++ [.feed b] from
    List.map_append, execAll_append _ _ _ _ hrun, execAll_singleton]
  rfl

/-! ### A valid frame -/

/-- The outcome of a valid frame by its type and payload size (42_frame_decoder.md R156). -/
theorem dispatch_response (len : Nat) (s : State) : ∃ o,
    dispatch len s =
      { s with chan := (dispatch len s).chan, failsafe := (dispatch len s).failsafe, outputs := s.outputs ++ [o] } ∧
    o.response = ⟨if s.dec.rxbuf[2] = 0x16 then (if len - 2 = 22 then .frameRc else .frameSizeMismatch)
      else if s.dec.rxbuf[2] = 0x14 then (if len - 2 = 10 then .frameLink else .frameSizeMismatch)
      else .frameIgnored, 0⟩ := by
  by_cases hrc : s.dec.rxbuf[2] = 0x16
  · rw [dispatch_rc hrc, if_pos hrc]
    by_cases hlen : len - 2 = 22
    · rw [if_pos hlen, if_pos hlen]; exact ⟨_, rfl, rfl⟩
    · rw [if_neg hlen, if_neg hlen]; exact ⟨_, rfl, rfl⟩
  · rw [if_neg hrc]
    by_cases hls : s.dec.rxbuf[2] = 0x14
    · rw [dispatch_link hls, if_pos hls]
      by_cases hlen : len - 2 = 10
      · rw [if_pos hlen, if_pos hlen]; exact ⟨_, rfl, rfl⟩
      · rw [if_neg hlen, if_neg hlen]; exact ⟨_, rfl, rfl⟩
    · rw [dispatch_ignored hrc hls, if_neg hls]
      exact ⟨_, rfl, rfl⟩

theorem State.afterCrc_atSync (s : State) (b : Byte) : (s.afterCrc b).AtSync := ⟨rfl, rfl, rfl⟩

section
variable {s : State} {sync type : Byte} {payload : List Byte} (h : AtCrcOf s sync type payload)
include h

/-- A frame's own CRC byte has it dispatched. -/
theorem AtCrcOf.exec_feed_match :
    exec (.feed (crc8 (type :: payload))) s =
      .next (dispatch (payload.length + 2) (s.afterCrc (crc8 (type :: payload)))) := by
  rw [exec_feed_crc_match h.inv h.state (by rw [h.slice_crc]), h.len]

theorem AtCrcOf.exec_feed_mismatch {b : Byte} (hb : b ≠ crc8 (type :: payload)) :
    exec (.feed b) s = .next ((s.afterCrc b).respond (reply .crcMismatch)) :=
  exec_feed_crc_mismatch h.inv h.state (by rwa [h.slice_crc])

theorem AtCrcOf.afterCrc_frameType (b : Byte) : (s.afterCrc b).dec.rxbuf[2] = type := by
  rw [State.afterCrc_frameType s b (by rw [h.idx]; omega), h.frameType_eq]

/-- A valid frame of a type that is not received is ignored. -/
theorem AtCrcOf.exec_feed_ignored (hrc : type ≠ 0x16) (hls : type ≠ 0x14) :
    exec (.feed (crc8 (type :: payload))) s =
      .next ((s.afterCrc (crc8 (type :: payload))).respond (reply .frameIgnored)) := by
  rw [h.exec_feed_match, dispatch_ignored] <;> rwa [h.afterCrc_frameType]

end

/-- A valid RC frame delivers its payload's channels. -/
theorem AtCrcOf.exec_feed_rc {s : State} {sync : Byte} {payload : List Byte} (h : AtCrcOf s sync 0x16 payload)
    (hlen : payload.length = 22) :
    exec (.feed (crc8 (0x16 :: payload))) s =
      .next ({ s.afterCrc (crc8 (0x16 :: payload)) with chan := unpackRc payload }.respond
        ⟨⟨.frameRc, 0⟩, [.rc (unpackRc payload)], []⟩) := by
  rw [h.exec_feed_match, dispatch_rc (h.afterCrc_frameType _), if_pos (by omega),
    rcDispatch_afterCrc _ (by rw [h.idx]; omega), h.slice_payload (by omega)]

/-- A valid link-statistics frame sets `failsafe` by the record of its payload and the thresholds at its CRC byte. -/
theorem AtCrcOf.exec_feed_link {s : State} {sync : Byte} {payload : List Byte} (h : AtCrcOf s sync 0x14 payload)
    (hlen : payload.length = 10) :
    let f := fsEval (unpackLs Config.antSelectPolarity Config.txpwrMw payload) s.lqThr s.rssiThr
    ∃ o, exec (.feed (crc8 (0x14 :: payload))) s =
      .next ({ s.afterCrc (crc8 (0x14 :: payload)) with failsafe := f }.respond o) := by
  rw [h.exec_feed_match, dispatch_link (h.afterCrc_frameType _), if_pos (by omega),
    linkDispatch_afterCrc _ (by rw [h.idx]; omega), h.slice_payload (by omega)]
  exact ⟨_, rfl⟩

theorem packRc_length (c : Vector Channel 16) : (packRc c).length = 22 := by
  simp [packRc]

/-- No telemetry frame is of a type a decoder receives. -/
theorem frameType_ne_received (k : Kind) : frameType k ≠ 0x16 ∧ frameType k ≠ 0x14 := by
  decide +revert

end Sys2Proof.Machine

open Sys2Proof Sys2Proof.Machine in
/-- Settles O39: the bytes are collected one FEED at a time from AWAIT_SYNC on. -/
theorem fedBytesAreCollected : Obligations.FedBytesAreCollected := by
  intro s sync len body hs hsync hmin hmax hle
  have hbyte : (BitVec.ofNat 8 len).toNat = len := lengthByte_toNat (by omega)
  obtain ⟨d, hrun, hst, hidx, hlen, hbuf⟩ := execAll_feeds_collects (bytes := sync :: BitVec.ofNat 8 len :: body) hs
    ⟨hsync, by omega⟩
  rw [hbyte] at hst
  exact ⟨_, hrun, rfl, hst, hidx, (congrArg BitVec.toNat hlen).trans hbyte, hbuf⟩

open Sys2Proof Sys2Proof.Machine in
/-- Settles O40: the collected frame's own CRC has it dispatched, which leaves the decoder's buffer. -/
theorem validFrameIsDispatched : Obligations.ValidFrameIsDispatched := by
  intro s sync type payload hs hsync hlen
  obtain ⟨d, hcrc, hrun⟩ := execAll_frame hs hsync type hlen
  obtain ⟨o, hdispatch, hresponse⟩ := dispatch_response (payload.length + 2)
    ((s.progressed d (payload.length + 3)).afterCrc (crc8 (type :: payload)))
  rw [hcrc.afterCrc_frameType] at hresponse
  refine ⟨_, o, (hrun _).trans hcrc.exec_feed_match, ?_⟩
  rw [hdispatch]
  exact ⟨State.afterCrc_atSync _ _, rfl, hcrc.afterCrc_bytes _, hresponse, rfl, rfl, rfl, rfl⟩

open Sys2Proof Sys2Proof.Machine in
/-- Settles O41: the frame's payload is the packed table, and unpacking gives the table back. -/
theorem rcFrameDeliversItsChannels : Obligations.RcFrameDeliversItsChannels := by
  intro s sync c hs hsync
  have hlen := packRc_length c
  obtain ⟨d, hcrc, hrun⟩ := execAll_frame (payload := packRc c) hs hsync 0x16 (by omega)
  have hstep := hcrc.exec_feed_rc hlen
  rw [unpackRc_packRc] at hstep
  refine ⟨_, (hrun _).trans hstep, State.afterCrc_atSync _ _, rfl, rfl, ?_⟩
  rw [hlen]
  rfl

open Sys2Proof Sys2Proof.Machine in
/-- Settles O42: the frame is collected, and the comparison at its last byte fails. -/
theorem corruptFrameDeliversNothing : Obligations.CorruptFrameDeliversNothing := by
  intro s sync type b payload hs hsync hlen hb
  obtain ⟨d, hcrc, hrun⟩ := execAll_frame hs hsync type hlen
  rw [frameBytes_dropLast]
  exact ⟨_, (hrun b).trans (hcrc.exec_feed_mismatch hb), State.afterCrc_atSync _ _, rfl⟩

open Sys2Proof Sys2Proof.Machine in
/-- Settles O43: a POLL that transmits serves a kind; its frame is collected, and then ignored for its type. -/
theorem telemetryFramesRoundTrip : Obligations.TelemetryFramesRoundTrip := by
  intro s t d o h ho htransmit hd
  obtain ⟨hnone, -⟩ | ⟨-, k, hk, -, hframe⟩ := onlyAPollTransmits .poll s t o h ho
  · exact absurd hnone htransmit
  · rw [hframe, telemetryFrame_eq, frameBytes_length]
    obtain ⟨hrc, hls⟩ := frameType_ne_received k
    obtain ⟨dec, hcrc, hrun⟩ := execAll_frame (sync := Config.syncTx) hd (.inl rfl) (frameType k)
      (s.tel.payload_length_le k)
    have hslice := State.afterCrc_slice (d.progressed dec ((s.tel.payload k).length + 3))
      (crc8 (frameType k :: s.tel.payload k)) 3 (j := (s.tel.payload k).length + 2) (by rw [hcrc.idx]; omega)
    refine ⟨_, k, hk, (hrun _).trans (hcrc.exec_feed_ignored hrc hls), State.afterCrc_atSync _ _, rfl, ?_⟩
    exact hslice.trans (hcrc.slice_payload rfl)

open Sys2Proof Sys2Proof.Machine in
/-- Settles O49: the setters between the bytes leave the decoder to collect them, and the comparator reads the thresholds
they left. -/
theorem thresholdSetMidFrameApplies : Obligations.ThresholdSetMidFrameApplies := by
  intro s sync ls ops hs hsync hops hfed
  have hhead : fedBytes ops = frameHead sync 0x14 (packLs ls) := hfed.trans (frameBytes_dropLast _ _ _)
  have hshort : (packLs ls).length ≤ 60 := show 10 ≤ 60 by decide
  obtain ⟨d, hrun, hcd⟩ := execAll_collects (fed := []) hops hs
    (by rw [List.nil_append, hhead]; exact beginsFrame_frameHead hsync _ hshort)
  rw [List.nil_append, hhead] at hcd
  obtain ⟨o, hstep⟩ := (Decoder.Collected.atCrcOf (s := { s with
    dec := d, lqThr := lqThrAfter ops s.lqThr, rssiThr := rssiThrAfter ops s.rssiThr,
    outputs := s.outputs ++ ops.map innerReply }) hshort hcd).exec_feed_link rfl
  have hall := execAll_append ops [.feed (crc8 (0x14 :: packLs ls))] s _ hrun
  rw [execAll_singleton, hstep] at hall
  refine ⟨_, hall, State.afterCrc_atSync _ _, rfl, rfl, ?_, rfl⟩
  rw [← selectRssi_false ls.rssi1 ls.rssi2 ls.antenna]
  exact fsEval_eq_true_iff (unpackLs Config.antSelectPolarity Config.txpwrMw (packLs ls)) (lqThrAfter ops s.lqThr)
    (rssiThrAfter ops s.rssiThr)
end

/-! ## The assembler's lines (30_encoding.md R97, R98) -/

section
namespace Sys2Proof.Machine

/-! ### Operands in their fields (R97) -/

theorem fit_eq_some_iff {w n : Nat} {b : BitVec w} : fit w n = some b ↔ n < 2 ^ w ∧ b = BitVec.ofNat w n := by
  rw [fit]
  split
  case isTrue h => simp [h, eq_comm]
  case isFalse h => simp [h]

theorem fit_of_lt {w n : Nat} (h : n < 2 ^ w) : fit w n = some (BitVec.ofNat w n) := if_pos h

theorem fit_of_le {w n : Nat} (h : 2 ^ w ≤ n) : fit w n = none := if_neg (Nat.not_lt.mpr h)

@[simp] theorem fit_toNat {w : Nat} (b : BitVec w) : fit w b.toNat = some b :=
  fit_eq_some_iff.mpr ⟨b.isLt, by simp⟩

/-- A list fits if each of its values does. -/
theorem fitAll_of_lt {w : Nat} {ns : List Nat} (h : ∀ n ∈ ns, n < 2 ^ w) :
    fitAll w ns = some (ns.map (BitVec.ofNat w)) := by
  induction ns with
  | nil => rfl
  | cons n ns ih =>
    obtain ⟨hn, hns⟩ := List.forall_mem_cons.mp h
    simp only [fitAll, fit_of_lt hn, ih hns, List.map_cons]

/-- One value that does not fit is an error of the whole list. -/
theorem fitAll_of_le {w : Nat} {ns : List Nat} (h : ∃ n ∈ ns, 2 ^ w ≤ n) : fitAll w ns = none := by
  induction ns with
  | nil => simp at h
  | cons n ns ih =>
    rw [fitAll]
    split
    case h_1 b bs hn hns =>
      obtain ⟨hlt, -⟩ := fit_eq_some_iff.mp hn
      have hrest : ∃ m ∈ ns, 2 ^ w ≤ m := by simpa [Nat.not_le.mpr hlt] using h
      rw [ih hrest] at hns
      cases hns
    case h_2 => rfl

/-- A line's list is an error if a value does not fit, or if the line rejects it whole. -/
theorem fitAll_bind_eq_none {w : Nat} {ns : List Nat} {f : List (BitVec w) → Option (List Byte)}
    (h : (∃ n ∈ ns, 2 ^ w ≤ n) ∨ f (ns.map (BitVec.ofNat w)) = none) : (fitAll w ns).bind f = none := by
  by_cases hfit : ∃ n ∈ ns, 2 ^ w ≤ n
  · rw [fitAll_of_le hfit]
    rfl
  · rw [fitAll_of_lt fun n hn => Nat.not_le.mp fun hle => hfit ⟨n, hn, hle⟩]
    exact h.resolve_left hfit

@[simp] theorem fitAll_toNat {w : Nat} (bs : List (BitVec w)) : fitAll w (bs.map BitVec.toNat) = some bs := by
  rw [fitAll_of_lt (by simp [BitVec.isLt])]
  simp [Function.comp_def]

/-! ### Commands (R97) -/

/-- The big-endian bytes of a value that fits its field are the field's bytes. -/
theorem bigEndian_of_lt {w v : Nat} (h : v < 2 ^ w) (n : Nat) :
    bigEndian n v = (List.range n).map fun j => byteOf (BitVec.ofNat w v) (n - 1 - j) := by
  rw [← bigEndian_toNat, BitVec.toNat_ofNat, Nat.mod_eq_of_lt h]

theorem assembleLine_setbat (v c k p : Nat) : assembleLine (.setbat v c k p) =
    if v < 2 ^ 16 ∧ c < 2 ^ 16 ∧ k < 2 ^ 24 ∧ p < 2 ^ 8 then
      some (0x05 :: bigEndian 2 v ++ bigEndian 2 c ++ bigEndian 3 k ++ bigEndian 1 p)
    else none := by
  by_cases h : v < 2 ^ 16 ∧ c < 2 ^ 16 ∧ k < 2 ^ 24 ∧ p < 2 ^ 8
  · have ⟨hv, hc, hk, hp⟩ := h
    have hbyte : byteOf (BitVec.ofNat 8 p) 0 = BitVec.ofNat 8 p := by
      rw [byteOf_eq, pow_zero, Nat.div_one, BitVec.ofNat_toNat, BitVec.setWidth_eq]
    rw [if_pos h, bigEndian_of_lt hv, bigEndian_of_lt hc, bigEndian_of_lt hk, bigEndian_of_lt hp]
    simp only [assembleLine, fit_of_lt hv, fit_of_lt hc, fit_of_lt hk, fit_of_lt hp, List.range, List.range.loop,
      List.map_cons, List.map_nil, Nat.reduceSub, hbyte]
    rfl
  · rw [if_neg h, assembleLine]
    split
    case h_1 hv hc hk hp =>
      exact absurd ⟨(fit_eq_some_iff.mp hv).1, (fit_eq_some_iff.mp hc).1, (fit_eq_some_iff.mp hk).1,
        (fit_eq_some_iff.mp hp).1⟩ h
    case h_2 => rfl

/-- A command with a list of bytes that fits. -/
theorem fitAll_bind_assembleFN {ds : List Nat} (mk : List Byte → Instr) (h : ∀ n ∈ ds, n < 256)
    (hlen : ds.length ≤ 255) :
    (fitAll 8 ds).bind (assembleFN mk) = some (commandBytes (mk (ds.map (BitVec.ofNat 8)))) := by
  rw [fitAll_of_lt h]
  exact if_pos (by simpa using hlen)

/-- A command with a value that is no byte, or with too many. -/
theorem fitAll_bind_assembleFN_eq_none {ds : List Nat} (mk : List Byte → Instr)
    (h : (∃ n ∈ ds, 256 ≤ n) ∨ 255 < ds.length) : (fitAll 8 ds).bind (assembleFN mk) = none :=
  fitAll_bind_eq_none (h.imp id fun hlen => if_neg (by simpa using hlen))

/-! ### Pseudo-instructions (R98) -/

theorem commandsBytes_feeds (bytes : List Byte) : commandsBytes (feeds bytes) = bytes.flatMap fun b => [0x01, b] := by
  rw [commandsBytes, feeds, List.flatMap_map]
  rfl

theorem assembleLine_feeds (bytes : List Byte) :
    assembleLine (.feeds (bytes.map BitVec.toNat)) = some (commandsBytes (feeds bytes)) := by
  rw [assembleLine, fitAll_toNat]
  rfl

theorem assembleLine_frame (sync type : Byte) (payload : List Byte) :
    assembleLine (.frame sync.toNat type.toNat (payload.map BitVec.toNat)) = assembleFrame sync type payload := by
  simp only [assembleLine, fit_toNat, fitAll_toNat]

theorem assembleLine_rcframe (c : Vector Channel 16) :
    assembleLine (.rcframe (c.toList.map BitVec.toNat)) = assembleFrame Config.syncA Config.typeRc (packRc c) := by
  rw [assembleLine, fitAll_toNat]
  exact dif_pos c.length_toList

theorem assembleLine_lsframe {payload : List Byte} (h : payload.length = 10) :
    assembleLine (.lsframe (payload.map BitVec.toNat)) = assembleFrame Config.syncA Config.typeLs payload := by
  rw [assembleLine, fitAll_toNat]
  exact if_pos h

end Sys2Proof.Machine

open Sys2Proof Sys2Proof.Machine in
/-- Settles O59: a line is the encoding of its operands where they fit their fields, and an error where one does not. -/
theorem assembledCommandLines : Obligations.AssembledCommandLines := by
  refine ⟨fun n hn => ?_, fun n hn => ?_, ⟨rfl, rfl⟩, assembleLine_setbat, fun ds => ⟨fun hds hlen => ?_, fun h => ?_⟩⟩
  · simp only [assembleLine, fit_of_lt (w := 8) hn]
    exact ⟨rfl, rfl, rfl⟩
  · simp only [assembleLine, fit_of_le (w := 8) hn, Option.map_none, and_self]
  · have hlength : (ds.map (BitVec.ofNat 8)).length = ds.length := List.length_map _
    rw [← hlength]
    exact ⟨fitAll_bind_assembleFN .setcus hds hlen, fitAll_bind_assembleFN .crc hds hlen⟩
  · exact ⟨fitAll_bind_assembleFN_eq_none .setcus h, fitAll_bind_assembleFN_eq_none .crc h⟩

open Sys2Proof Sys2Proof.Machine in
/-- Settles O60: each pseudo-instruction is the frame it names, and a frame is the FEEDs of its bytes. -/
theorem pseudoInstructionsExpand : Obligations.PseudoInstructionsExpand := by
  refine ⟨fun bs => ?_, fun s t p hp => ?_, fun s t p hp => ?_, fun c => ?_, fun cs hcs => ?_, fun p hp => ?_,
    fun ps hps => ?_, fun b => ?_⟩
  · rw [assembleLine_feeds, commandsBytes_feeds]
  · rw [assembleLine_frame, assembleLine_feeds]
    exact if_pos hp
  · rw [assembleLine_frame]
    exact if_neg (Nat.not_le.mpr hp)
  · exact (assembleLine_rcframe c).trans (assembleLine_frame 0xC8 0x16 (packRc c)).symm
  · exact fitAll_bind_eq_none (hcs.imp id fun hlen => dif_neg (by simpa using hlen))
  · exact (assembleLine_lsframe hp).trans (assembleLine_frame 0xC8 0x14 p).symm
  · exact fitAll_bind_eq_none (.inr (if_neg (by simpa using hps)))
  · rw [assembleLine, fit_toNat]
    rfl
end
